-- ==== Sys2Proof/Word.lean ====
section
/-! DEFINITION. The machine word: every register, memory cell, operand and address is one byte (00_scope.md R7, R10). -/

namespace Sys2Proof

/-- A byte: an unsigned value 0..255 (00_scope.md R10), the only width there is (20_memory.md R49). -/
abbrev Byte := BitVec 8

/-- The index of a general register, 0..7 (10_state.md R20). -/
abbrev RegIdx := Fin 8

/-- Register 7, the stack pointer (00_scope.md R13, 10_state.md R23). -/
def spIdx : RegIdx := 7

end Sys2Proof
end

