-- ==== Sys2Proof/Syntax.lean ====
section
/-! DEFINITION. The instructions: one constructor per row of the opcode table (30_encoding.md R72).

An operand is the whole byte that the encoding holds (30_encoding.md R68). A byte that names no register is still an operand:
the instruction that uses it raises RegisterIndexError (40_cycle.md R91). -/

namespace Sys2Proof

/-- The twelve instructions (00_scope.md R2), in the table's order. -/
inductive Instr where
  /-- `HALT` (42_ldi_prn_halt.md R124) -/
  | halt
  /-- `RET` (44_call_ret.md R143) -/
  | ret
  /-- `PUSH Ra` (43_stack.md R131) -/
  | push (a : Byte)
  /-- `POP Ra` (43_stack.md R132) -/
  | pop (a : Byte)
  /-- `PRN Ra` (42_ldi_prn_halt.md R122) -/
  | prn (a : Byte)
  /-- `CALL Ra` (44_call_ret.md R140) -/
  | call (a : Byte)
  /-- `LDI Ra, imm` (42_ldi_prn_halt.md R120) -/
  | ldi (a imm : Byte)
  /-- `ADD Ra, Rb` (41_alu.md R106) -/
  | add (a b : Byte)
  /-- `SUB Ra, Rb` (41_alu.md R107) -/
  | sub (a b : Byte)
  /-- `MUL Ra, Rb` (41_alu.md R108) -/
  | mul (a b : Byte)
  /-- `DIV Ra, Rb` (41_alu.md R109) -/
  | div (a b : Byte)
  /-- `MOD Ra, Rb` (41_alu.md R110) -/
  | mod (a b : Byte)
  deriving DecidableEq, Repr

end Sys2Proof
end

