-- ==== Sys2Proof/WellFormed.lean ====
section
/-! DEFINITION. Which instructions are well formed: every register-index operand is 0..7 (30_encoding.md R74). -/

namespace Sys2Proof

/-- The operand bytes an instruction uses as register indices, operand a first: the table of 40_cycle.md R91. -/
def Instr.regOperands : Instr → List Byte
  | .halt => []
  | .ret => []
  | .push a => [a]
  | .pop a => [a]
  | .prn a => [a]
  | .call a => [a]
  | .ldi a _ => [a]
  | .add a b => [a, b]
  | .sub a b => [a, b]
  | .mul a b => [a, b]
  | .div a b => [a, b]
  | .mod a b => [a, b]

/-- Does this byte name a register (10_state.md R21)? -/
def isRegIndex (b : Byte) : Bool := decide (b.toNat < 8)

/-- Every register-index operand is 0..7 (30_encoding.md R74); an immediate may be any byte. -/
def Instr.wellFormed (i : Instr) : Bool := i.regOperands.all isRegIndex

end Sys2Proof
end

