-- ==== Sys2Proof/Decode.lean ====
section
/-! DEFINITION. The opcode byte's fields, the dispatch table, the decoder and the encoder (30_encoding.md). -/

namespace Sys2Proof

/-! ### Fields of the opcode byte (30_encoding.md R66, R67) -/

/-- The operand count `n = op >> 6` (30_encoding.md R67). -/
def opN (op : Byte) : Nat := (op >>> 6).toNat

/-- The ALU-class flag `is_alu = (op >> 5) & 1` (30_encoding.md R67). -/
def opIsAlu (op : Byte) : Bool := (op >>> 5) &&& 1#8 == 1#8

/-- The PC-mutating flag `sets_pc = (op >> 4) & 1` (30_encoding.md R67). -/
def opSetsPc (op : Byte) : Bool := (op >>> 4) &&& 1#8 == 1#8

/-- The identity field `op[3:0]` (30_encoding.md R66). -/
def opId (op : Byte) : Byte := op &&& 0x0F#8

/-! ### The opcode bytes (30_encoding.md R72; UNVERIFIED, the spec takes the values from general knowledge: log entry 1) -/

/-- HALT -/
def Opcode.halt : Byte := 0x01
/-- RET -/
def Opcode.ret : Byte := 0x11
/-- PUSH -/
def Opcode.push : Byte := 0x45
/-- POP -/
def Opcode.pop : Byte := 0x46
/-- PRN -/
def Opcode.prn : Byte := 0x47
/-- CALL -/
def Opcode.call : Byte := 0x50
/-- LDI -/
def Opcode.ldi : Byte := 0x82
/-- ADD -/
def Opcode.add : Byte := 0xA0
/-- SUB -/
def Opcode.sub : Byte := 0xA1
/-- MUL -/
def Opcode.mul : Byte := 0xA2
/-- DIV -/
def Opcode.div : Byte := 0xA3
/-- MOD -/
def Opcode.mod : Byte := 0xA4

/-! ### The dispatch table (10_state.md R35) -/

/-- What a table entry gives: the instruction made from the latched operand bytes a and b. A one-operand instruction
drops b, and a no-operand one drops both (30_encoding.md R69). -/
abbrev Handler := Byte → Byte → Instr

/-- The ALU dispatch's five operations (41_alu.md R105). -/
def aluTable : List (Byte × Handler) :=
  [ (Opcode.add, fun a b => .add a b),
    (Opcode.sub, fun a b => .sub a b),
    (Opcode.mul, fun a b => .mul a b),
    (Opcode.div, fun a b => .div a b),
    (Opcode.mod, fun a b => .mod a b) ]

/-- The entries looked up after the ALU test and the HALT test (40_cycle.md R89). -/
def handlerTable : List (Byte × Handler) :=
  [ (Opcode.ret, fun _ _ => .ret),
    (Opcode.push, fun a _ => .push a),
    (Opcode.pop, fun a _ => .pop a),
    (Opcode.prn, fun a _ => .prn a),
    (Opcode.call, fun a _ => .call a),
    (Opcode.ldi, fun a b => .ldi a b) ]

/-- The dispatch table holds all twelve recognised opcodes (10_state.md R35, conflict C14). -/
def dispatchTable : List (Byte × Handler) :=
  (Opcode.halt, fun _ _ => .halt) :: (handlerTable ++ aluTable)

/-- The entry of an opcode in a table. -/
def lookupHandler : List (Byte × Handler) → Byte → Option Handler
  | [], _ => none
  | (k, h) :: rest, op => if k = op then some h else lookupHandler rest op

/-- The handler of an opcode, chosen in the order of 40_cycle.md R89: the ALU dispatch first, then HALT by equality, then the
table. `none` is a decode error (40_cycle.md R90, 30_encoding.md R77). -/
def selectHandler (op : Byte) : Option Handler :=
  if opIsAlu op then lookupHandler aluTable op
  else if op = Opcode.halt then some (fun _ _ => .halt)
  else lookupHandler handlerTable op

/-! ### The decoder -/

/-- Why a byte sequence is no instruction. -/
inductive DecodeReject where
  /-- the opcode byte is not one of the twelve (40_cycle.md R90): DecodeError -/
  | illegalOpcode (op : Byte)
  /-- the sequence ends before the instruction does; a fetch never gives this, since its window has three bytes -/
  | truncated
  deriving DecidableEq, Repr

/-- The instruction of a fetch window (op, a, b) (40_cycle.md R87 to R90). -/
def decodeWindow (op a b : Byte) : Except DecodeReject Instr :=
  match selectHandler op with
  | some h => .ok (h a b)
  | none => .error (.illegalOpcode op)

/-- The first instruction of a byte sequence and the bytes after it; its length is n + 1 (30_encoding.md R65, R79). -/
def decode : List Byte → Except DecodeReject (Instr × List Byte)
  | [] => .error .truncated
  | op :: rest =>
    match decodeWindow op (rest.getD 0 0) (rest.getD 1 0) with
    | .error e => .error e
    | .ok i => if opN op ≤ rest.length then .ok (i, rest.drop (opN op)) else .error .truncated

/-- Byte k of a word numbered as the opcode table numbers it: byte 0 is bits 7..0. Bits from `nbits` up are 0. -/
def tableWordByte (nbits w k : Nat) : Byte := BitVec.ofNat 8 (w % 2 ^ nbits / 256 ^ k)

/-- The instruction the decoder reads from the word `w` of an opcode-table row of `nbits` bits, laid out as a window of three
bytes, the first at the lowest address (20_memory.md R49). -/
def decodeTableWord (nbits w : Nat) : Option Instr :=
  match decode [tableWordByte nbits w 0, tableWordByte nbits w 1, tableWordByte nbits w 2] with
  | .ok (i, _) => some i
  | .error _ => none

/-! ### The encoder (30_encoding.md R68, R72, R81) -/

/-- The opcode byte of an instruction (30_encoding.md R72). -/
def Instr.opcode : Instr → Byte
  | .halt => Opcode.halt
  | .ret => Opcode.ret
  | .push _ => Opcode.push
  | .pop _ => Opcode.pop
  | .prn _ => Opcode.prn
  | .call _ => Opcode.call
  | .ldi _ _ => Opcode.ldi
  | .add _ _ => Opcode.add
  | .sub _ _ => Opcode.sub
  | .mul _ _ => Opcode.mul
  | .div _ _ => Opcode.div
  | .mod _ _ => Opcode.mod

/-- The operand bytes of an instruction, a then b (30_encoding.md R68). -/
def Instr.operands : Instr → List Byte
  | .halt => []
  | .ret => []
  | .push a => [a]
  | .pop a => [a]
  | .prn a => [a]
  | .call a => [a]
  | .ldi a imm => [a, imm]
  | .add a b => [a, b]
  | .sub a b => [a, b]
  | .mul a b => [a, b]
  | .div a b => [a, b]
  | .mod a b => [a, b]

/-- The bytes of an instruction: the opcode, then exactly n operand bytes (30_encoding.md R81). -/
def encode (i : Instr) : List Byte := i.opcode :: i.operands

/-! ### The assembler's checks (30_encoding.md R80, R81, 42_ldi_prn_halt.md R121) -/

/-- The operand byte of `Rk`; only R0..R7 exist (30_encoding.md R80, R81). -/
def assembleRegister (k : Nat) : Option Byte := if k < 8 then some (BitVec.ofNat 8 k) else none

/-- The operand byte of an immediate; one outside 0..255 is refused, never reduced (42_ldi_prn_halt.md R121). -/
def assembleImmediate (v : Nat) : Option Byte := if v < 256 then some (BitVec.ofNat 8 v) else none

/-- What the assembler emits: the encoding of a well-formed instruction, and nothing for another (30_encoding.md R80, R81). -/
def assemble (i : Instr) : Option (List Byte) := if i.wellFormed then some (encode i) else none

/-- The mnemonic of an instruction, upper case (30_encoding.md R72, R80). -/
def Instr.mnemonic : Instr → String
  | .halt => "HALT"
  | .ret => "RET"
  | .push _ => "PUSH"
  | .pop _ => "POP"
  | .prn _ => "PRN"
  | .call _ => "CALL"
  | .ldi _ _ => "LDI"
  | .add _ _ => "ADD"
  | .sub _ _ => "SUB"
  | .mul _ _ => "MUL"
  | .div _ _ => "DIV"
  | .mod _ _ => "MOD"

end Sys2Proof
end

