-- ==== Sys2Proof/Config.lean ====
section
/-! DEFINITION. What an implementation fixes: the parameters of 00_scope.md R7 and R8.

The spec leaves no VALUE of an instruction undefined, so there is no free value and no opaque constant here. -/

namespace Sys2Proof

/-- `MEM_SIZE`: the number of memory cells, addresses 0..255 (00_scope.md R7). -/
def Config.memSize : Nat := 256

/-- `SP_RESET`: the reset value of R7, which is also the address that marks an empty stack
(00_scope.md R7, 43_stack.md R130). -/
def Config.spReset : Byte := 0xF4

/-- `PC_RESET`: the entry point (00_scope.md R7, 70_reset_and_hazards.md R177). -/
def Config.pcReset : Byte := 0

/-- `LOAD_BASE`: the address of a loaded program's first byte (00_scope.md R7). -/
def Config.loadBase : Nat := 0

/-- The two OPEN parameters that change what an instruction does (00_scope.md R8), fixed when the machine is constructed.
`State` carries them unchanged, so that a statement about every state holds for every value of them (log entry 2). -/
structure Params where
  /-- `STACK_MIN`, the PUSH bound, 0 to 0xF3 (00_scope.md R8, decision D7). -/
  stackMin : Fin 0xF4
  /-- `CALL_CHECKS_OVERFLOW`: does CALL apply PUSH's bound (00_scope.md R8, 44_call_ret.md R142, decision D8)? -/
  callChecksOverflow : Bool
  deriving DecidableEq, Repr

/-- The spec's defaults: `STACK_MIN = 0`, `CALL_CHECKS_OVERFLOW = false` (00_scope.md R8). -/
def Params.default : Params := { stackMin := 0, callChecksOverflow := false }

/-- The five codes of the OPEN parameter `EXIT_CODE`, one per fault cause (00_scope.md R8, decision D19).
It is an argument of the operation that uses it, never a constant. -/
structure ExitCodes where
  /-- the code of a DecodeError -/
  decodeError : Int
  /-- the code of a StackOverflow -/
  stackOverflow : Int
  /-- the code of a StackUnderflow -/
  stackUnderflow : Int
  /-- the code of an AddressError -/
  addressError : Int
  /-- the code of a RegisterIndexError -/
  registerIndexError : Int
  deriving DecidableEq, Repr

/-- The five codes as a list, in the order of the causes' numbers (60_exceptions.md R151). -/
def ExitCodes.codes (e : ExitCodes) : List Int :=
  [e.decodeError, e.stackOverflow, e.stackUnderflow, e.addressError, e.registerIndexError]

/-- The constraint on `EXIT_CODE`: "each fault cause to a distinct non-zero code" (60_exceptions.md R166). -/
def ExitCodes.wf (e : ExitCodes) : Bool := decide (e.codes.Nodup) && e.codes.all (fun c => decide (c ≠ 0))

end Sys2Proof
end

