-- ==== Sys2Proof/Machine/State.lean ====
section
/-! DEFINITION. The machine's state as plain data, and the state right after reset (10_state.md). -/

namespace Sys2Proof.Machine

/-- The run state of the core (10_state.md R29). -/
inductive RunStatus where
  /-- constructed, not yet run -/
  | idle
  /-- stepping -/
  | running
  /-- a HALT has executed -/
  | halted
  /-- a fatal error has stopped the core -/
  | faulted
  deriving DecidableEq, Repr

/-- The five fatal causes (60_exceptions.md R151). -/
inductive FaultCause where
  /-- code 1: the opcode byte is not one of the twelve -/
  | decodeError
  /-- code 2: PUSH, or CALL where it checks, at or below `STACK_MIN` -/
  | stackOverflow
  /-- code 3: POP on an empty stack -/
  | stackUnderflow
  /-- code 4: an address computed from PC is above 255 -/
  | addressError
  /-- code 5: a register-index operand is 8 or more -/
  | registerIndexError
  deriving DecidableEq, Repr

/-- The fault record (10_state.md R30). -/
structure FaultRecord where
  /-- which fatal cause -/
  cause : FaultCause
  /-- the address of the faulting instruction's opcode -/
  pc : Byte
  /-- the byte at `pc` -/
  opcode : Byte
  /-- the number that 60_exceptions.md R151 gives for the cause -/
  info : Nat
  deriving DecidableEq, Repr

/-- The diagnostic port's only event, `DivByZero(pc, opcode, a, b)` (10_state.md R39). -/
structure DivByZeroEvent where
  /-- the address of the DIV or MOD -/
  pc : Byte
  /-- its opcode byte -/
  opcode : Byte
  /-- its operand a -/
  a : Byte
  /-- its operand b -/
  b : Byte
  deriving DecidableEq, Repr

/-- Memory: the cells that do not hold 0, by rising address. A cell not listed holds 0, the reset contents
(20_memory.md R45, 10_state.md R41). -/
abbrev Memory := List Host.Cell

/-- Everything the spec gives the machine (the table at the head of 10_state.md), and the construction parameters. -/
structure State where
  /-- the general registers R0..R7; R7 is the stack pointer (10_state.md R20, R23) -/
  regs : Vector Byte 8
  /-- the program counter (10_state.md R25) -/
  pc : Byte
  /-- the memory (10_state.md R33) -/
  mem : Memory
  /-- the run state (10_state.md R29) -/
  status : RunStatus
  /-- the fault record, present exactly in FAULTED (10_state.md R30) -/
  fault : Option FaultRecord
  /-- the output port, oldest byte first (10_state.md R38) -/
  out : List Byte
  /-- the diagnostic port, oldest event first (10_state.md R39) -/
  diag : List DivByZeroEvent
  /-- the construction parameters, which nothing changes (00_scope.md R8; the model's own field, log entry 2) -/
  params : Params
  deriving DecidableEq, Repr

/-- The state after construction with the given parameters: the values of 10_state.md R41. -/
def State.construct (p : Params) : State where
  regs := #v[0, 0, 0, 0, 0, 0, 0, Config.spReset]
  pc := Config.pcReset
  mem := []
  status := .idle
  fault := none
  out := []
  diag := []
  params := p

/-- The machine right after reset (10_state.md R41, 70_reset_and_hazards.md R175), with the default parameters of 00_scope.md R8
(DESIGN CHOICE, log entry 2). -/
def State.reset : State := State.construct Params.default

/-- Why a step could end in no next state. There is no such reason: every fatal condition of 60_exceptions.md R151 leaves a next
state, FAULTED (60_exceptions.md R156), and no instruction is undefined. So the type has no constructor, and that an execution
always answers a next state is a statement about the machine (log entry 3). -/
inductive Fault where
  deriving DecidableEq, Repr

/-- Why an instruction is given no meaning. -/
inductive Refusal where
  /-- Raised by no arm: every instruction has its meaning. Safe: the model would stop where the hardware goes on. -/
  | notModelled (mnemonic : String)
  deriving DecidableEq, Repr

end Sys2Proof.Machine
end

