-- ==== Sys2Proof/Machine/Ops.lean ====
section
/-! DEFINITION. The named operations over memory, registers, the pc, the ports and the run state; entering FAULTED. -/

namespace Sys2Proof.Machine

/-! ### Memory (20_memory.md R45 to R47)

Keys are plain numbers; every caller gives one below 256. -/

/-- What a cell that is not listed reads as: the reset contents (10_state.md R41). -/
def Memory.unlisted : Byte := 0

/-- `MemRead(addr, 1)` (20_memory.md R46). -/
def Memory.read : Memory → Nat → Byte
  | [], _ => Memory.unlisted
  | (k, w) :: m, addr => if k = addr then w else Memory.read m addr

/-- Unlist a cell. -/
def Memory.erase : Memory → Nat → Memory
  | [], _ => []
  | (k, w) :: m, addr => if k = addr then Memory.erase m addr else (k, w) :: Memory.erase m addr

/-- List a cell with a byte, in its place by rising address. -/
def Memory.insert : Memory → Nat → Byte → Memory
  | [], addr, v => [(addr, v)]
  | (k, w) :: m, addr, v =>
    if addr < k then (addr, v) :: (k, w) :: m
    else if k = addr then (addr, v) :: m
    else (k, w) :: Memory.insert m addr v

/-- `MemWrite(addr, 1, v)` (20_memory.md R47): writing what an unlisted cell reads as unlists the cell. -/
def Memory.write (m : Memory) (addr : Nat) (v : Byte) : Memory :=
  if v = Memory.unlisted then Memory.erase m addr else Memory.insert m addr v

/-- Consecutive `MemWrite`s from an address up (10_state.md R40). -/
def Memory.writeBytes : Memory → Nat → List Byte → Memory
  | m, _, [] => m
  | m, addr, v :: rest => Memory.writeBytes (Memory.write m addr v) (addr + 1) rest

/-- Every listed cell lies at or above `lo` and inside the address space, holds a byte that an unlisted one does not read as,
and the addresses rise strictly. -/
def Memory.wfFrom : Nat → Memory → Bool
  | _, [] => true
  | lo, (k, w) :: m =>
    decide (lo ≤ k) && decide (k < Config.memSize) && decide (w ≠ Memory.unlisted) && Memory.wfFrom (k + 1) m

/-- The canonical form of memory: equal memories are equal lists. -/
def Memory.wf (m : Memory) : Bool := Memory.wfFrom 0 m

/-- Read the byte at an 8-bit address (20_memory.md R46). -/
def State.memRead (s : State) (addr : Byte) : Byte := Memory.read s.mem addr.toNat

/-- Write the byte at an 8-bit address (20_memory.md R47). -/
def State.memWrite (s : State) (addr v : Byte) : State := { s with mem := Memory.write s.mem addr.toNat v }

/-! ### Registers and the pc (10_state.md R21, R22, R26) -/

/-- `x[i]` (10_state.md R21). -/
def State.readReg (s : State) (i : RegIdx) : Byte := s.regs[i]

/-- `x[i] <- v` (10_state.md R22). No register is hard-wired (10_state.md R20). -/
def State.writeReg (s : State) (i : RegIdx) (v : Byte) : State := { s with regs := s.regs.set i v }

/-- `x[SP]`, the stack pointer (00_scope.md R13). -/
def State.sp (s : State) : Byte := s.readReg spIdx

/-- `x[7] <- (x[7] - 1) mod 256` (43_stack.md R131, R135). -/
def State.decSp (s : State) : State := s.writeReg spIdx (s.sp - 1)

/-- `x[7] <- (x[7] + 1) mod 256` (43_stack.md R132, R135). -/
def State.incSp (s : State) : State := s.writeReg spIdx (s.sp + 1)

/-- `pc <- target` (10_state.md R26). -/
def State.setPc (s : State) (target : Byte) : State := { s with pc := target }

/-! ### The two ports (10_state.md R38, R39) -/

/-- `emit(v)`: append a byte to the output port (10_state.md R38). -/
def State.emit (s : State) (v : Byte) : State := { s with out := s.out ++ [v] }

/-- `report DivByZero(pc, opcode, a, b)`: append the event to the diagnostic port; nothing else changes
(60_exceptions.md R154). -/
def State.report (s : State) (e : DivByZeroEvent) : State := { s with diag := s.diag ++ [e] }

/-! ### The run state -/

/-- `halt`: the run state becomes HALTED (42_ldi_prn_halt.md R124). -/
def State.halt (s : State) : State := { s with status := .halted }

/-- Entry into FAULTED (60_exceptions.md R156), the one operation for all five causes: `raise cause(info)`. The state given is
the one before the instruction, so no effect of it remains, and PC still addresses it. There is no return from a fault
(60_exceptions.md R158): only the host's `reset` leaves FAULTED. -/
def State.raise (s : State) (cause : FaultCause) (info : Nat) : State :=
  { s with
    status := .faulted
    fault := some { cause := cause, pc := s.pc, opcode := s.memRead s.pc, info := info } }

/-- What a core that is not RUNNING does when it is given a step: it makes none, and all its state is kept
(40_cycle.md R85, 10_state.md R42, 60_exceptions.md R165; DESIGN CHOICE, log entry 4). -/
def State.rest (s : State) : State := s

/-! ### The checks every sequential instruction makes -/

/-- The sequential-advance range check of an instruction of n operands (40_cycle.md R92): AddressError if `PC + n + 1` passes 255,
else go on with that next pc. -/
def State.withNextPc (s : State) (n : Nat) (k : Byte → State) : State :=
  if s.pc.toNat + n + 1 > 255 then s.raise .addressError (s.pc.toNat + n + 1)
  else k (BitVec.ofNat 8 (s.pc.toNat + n + 1))

end Sys2Proof.Machine
end

