-- ==== Sys2Proof/Machine/Flags.lean ====
section
/-! DEFINITION. The core has no flags register and no condition codes (10_state.md R31): no instruction sets or reads a flag, no
carry, borrow or overflow is recorded (41_alu.md R112). What stands here is the one condition an operation detects in its
operands, the zero divisor. -/

namespace Sys2Proof.Machine

/-- Is the divisor zero (41_alu.md R109, R110)? -/
def zeroDivisor (divisor : Byte) : Bool := divisor == 0

/-- The event that a DIV or MOD at the current pc reports (10_state.md R39, 60_exceptions.md R154). -/
def State.divByZeroEvent (s : State) (opcode a b : Byte) : DivByZeroEvent :=
  { pc := s.pc, opcode := opcode, a := a, b := b }

end Sys2Proof.Machine
end

