-- ==== Sys2Proof/Machine/Operands.lean ====
section
/-! DEFINITION. The two operand forms (30_encoding.md R71): a register index, checked, and an 8-bit immediate, which is the byte
itself with no extension, scaling or shift and so needs no operation. -/

namespace Sys2Proof.Machine

/-- The register a byte selects, if there is one (10_state.md R21). -/
def regIndex (b : Byte) : Option RegIdx := if h : b.toNat < 8 then some ⟨b.toNat, h⟩ else none

/-- Use an operand as a register index (40_cycle.md R91): RegisterIndexError with the byte as info if it names no register, else
go on with the register. Operand a is checked by the outer use, b by the inner one. -/
def State.withReg (s : State) (b : Byte) (k : RegIdx → State) : State :=
  match regIndex b with
  | some r => k r
  | none => s.raise .registerIndexError b.toNat

end Sys2Proof.Machine
end

