-- ==== Sys2Proof/Machine/Alu.lean ====
section
/-! DEFINITION. ADD, SUB, MUL, DIV and MOD (41_alu.md). -/

namespace Sys2Proof.Machine

/-! ### Results (41_alu.md R112): exact unsigned arithmetic, reduced modulo 256 -/

/-- `(x + y) mod 256` (41_alu.md R106). -/
def addResult (x y : Byte) : Byte := BitVec.ofNat 8 (x.toNat + y.toNat)

/-- `(x - y) mod 256`, the mathematical difference reduced into 0..255 (41_alu.md R107). -/
def subResult (x y : Byte) : Byte := BitVec.ofInt 8 ((x.toNat : Int) - (y.toNat : Int))

/-- `(x * y) mod 256` (41_alu.md R108). -/
def mulResult (x y : Byte) : Byte := BitVec.ofNat 8 (x.toNat * y.toNat)

/-- `x div y`, for y > 0 (41_alu.md R109). -/
def divResult (x y : Byte) : Byte := BitVec.ofNat 8 (x.toNat / y.toNat)

/-- `x mod y`, for y > 0 (41_alu.md R110). -/
def modResult (x y : Byte) : Byte := BitVec.ofNat 8 (x.toNat % y.toNat)

/-! ### The shape all five share (41_alu.md R105) -/

/-- The checks of an ALU instruction, then its effect on the two registers, then the advance: a and b must name registers
(40_cycle.md R91), the advance must stay in range (40_cycle.md R92). -/
def State.aluStep (s : State) (opcode a b : Byte) (effect : RegIdx → RegIdx → State) : State :=
  s.withReg a fun ra => s.withReg b fun rb => s.withNextPc (opN opcode) fun next => (effect ra rb).setPc next

/-- `x[a] <- f(x[a], x[b])` (41_alu.md R106 to R108). -/
def State.aluWrite (s : State) (f : Byte → Byte → Byte) (ra rb : RegIdx) : State :=
  s.writeReg ra (f (s.readReg ra) (s.readReg rb))

/-- A zero divisor is reported and leaves `x[a]` unchanged; any other gives `x[a] <- f(x[a], x[b])` (41_alu.md R109, R110). -/
def State.aluDivide (s : State) (opcode a b : Byte) (f : Byte → Byte → Byte) (ra rb : RegIdx) : State :=
  if zeroDivisor (s.readReg rb) then s.report (s.divByZeroEvent opcode a b) else s.aluWrite f ra rb

/-! ### The instructions -/

/-- ADD (41_alu.md R106). -/
def execAdd (a b : Byte) (s : State) : Host.Outcome State Fault Refusal :=
  .next (s.aluStep Opcode.add a b (s.aluWrite addResult))

/-- SUB (41_alu.md R107). -/
def execSub (a b : Byte) (s : State) : Host.Outcome State Fault Refusal :=
  .next (s.aluStep Opcode.sub a b (s.aluWrite subResult))

/-- MUL (41_alu.md R108). -/
def execMul (a b : Byte) (s : State) : Host.Outcome State Fault Refusal :=
  .next (s.aluStep Opcode.mul a b (s.aluWrite mulResult))

/-- DIV (41_alu.md R109). -/
def execDiv (a b : Byte) (s : State) : Host.Outcome State Fault Refusal :=
  .next (s.aluStep Opcode.div a b (s.aluDivide Opcode.div a b divResult))

/-- MOD (41_alu.md R110). -/
def execMod (a b : Byte) (s : State) : Host.Outcome State Fault Refusal :=
  .next (s.aluStep Opcode.mod a b (s.aluDivide Opcode.mod a b modResult))

end Sys2Proof.Machine
end

