-- ==== Sys2Proof/Machine/Stack.lean ====
section
/-! DEFINITION. The stack's operations, PUSH and POP (43_stack.md). -/

namespace Sys2Proof.Machine

/-- PUSH's bound (43_stack.md R131): StackOverflow with x[7] as info if `x[7] <= STACK_MIN`, else go on. -/
def State.withStackRoom (s t : State) : State :=
  if s.sp.toNat ≤ s.params.stackMin.val then s.raise .stackOverflow s.sp.toNat else t

/-- POP's test (43_stack.md R132): StackUnderflow with x[7] as info if `x[7] = 0xF4`, else go on. Only that exact value counts as
empty. -/
def State.withStackItem (s t : State) : State :=
  if s.sp = Config.spReset then s.raise .stackUnderflow s.sp.toNat else t

/-- Decrement x[7], then write the byte there (43_stack.md R131, 44_call_ret.md R140). -/
def State.pushByte (s : State) (v : Byte) : State := s.decSp.memWrite s.decSp.sp v

/-- The byte on top of the stack, read before any increment (43_stack.md R132). -/
def State.stackTop (s : State) : Byte := s.memRead s.sp

/-- PUSH (43_stack.md R131): `x[a]` is read after the decrement, so PUSH R7 stores the decremented value (43_stack.md R133). -/
def execPush (a : Byte) (s : State) : Host.Outcome State Fault Refusal :=
  .next (s.withReg a fun ra => s.withNextPc (opN Opcode.push) fun next =>
    s.withStackRoom ((s.pushByte (s.decSp.readReg ra)).setPc next))

/-- POP (43_stack.md R132): x[7] is read for the increment after the write to `x[a]`, so POP R7 increments the loaded value
(43_stack.md R133). The cell is not cleared. -/
def execPop (a : Byte) (s : State) : Host.Outcome State Fault Refusal :=
  .next (s.withReg a fun ra => s.withNextPc (opN Opcode.pop) fun next =>
    s.withStackItem ((s.writeReg ra s.stackTop).incSp.setPc next))

end Sys2Proof.Machine
end

