-- ==== Sys2Proof/Machine/CallRet.lean ====
section
/-! DEFINITION. CALL and RET (44_call_ret.md). -/

namespace Sys2Proof.Machine

/-- CALL's bound: PUSH's, where `CALL_CHECKS_OVERFLOW` is true, and none where it is false (44_call_ret.md R140, R142). -/
def State.withCallRoom (s t : State) : State :=
  if s.params.callChecksOverflow then s.withStackRoom t else t

/-- The address a CALL pushes, `PC + 2` (10_state.md R25, 44_call_ret.md R140). -/
def State.returnAddress (s : State) : Byte := s.pc + 2

/-- CALL (44_call_ret.md R140): the target is read after the push, so CALL R7 goes to the decremented stack pointer
(44_call_ret.md R141). It writes pc itself: no advance and no advance check (40_cycle.md R92, R94). -/
def execCall (a : Byte) (s : State) : Host.Outcome State Fault Refusal :=
  .next (s.withReg a fun ra =>
    s.withCallRoom ((s.pushByte s.returnAddress).setPc ((s.pushByte s.returnAddress).readReg ra)))

/-- RET (44_call_ret.md R143): no underflow test (44_call_ret.md R144). -/
def execRet (s : State) : Host.Outcome State Fault Refusal :=
  .next (s.incSp.setPc s.stackTop)

end Sys2Proof.Machine
end

