-- ==== Sys2Proof/Machine/LdiPrnHalt.lean ====
section
/-! DEFINITION. LDI, PRN and HALT (42_ldi_prn_halt.md). -/

namespace Sys2Proof.Machine

/-- LDI: `x[a] <- imm`, the byte unchanged (42_ldi_prn_halt.md R120). -/
def execLdi (a imm : Byte) (s : State) : Host.Outcome State Fault Refusal :=
  .next (s.withReg a fun ra => s.withNextPc (opN Opcode.ldi) fun next => (s.writeReg ra imm).setPc next)

/-- PRN: `emit(x[a])` (42_ldi_prn_halt.md R122). -/
def execPrn (a : Byte) (s : State) : Host.Outcome State Fault Refusal :=
  .next (s.withReg a fun ra => s.withNextPc (opN Opcode.prn) fun next => (s.emit (s.readReg ra)).setPc next)

/-- HALT: `halt`; PC is not changed and nothing is emitted (42_ldi_prn_halt.md R124, R125). -/
def execHalt (s : State) : Host.Outcome State Fault Refusal :=
  .next s.halt

end Sys2Proof.Machine
end

