-- ==== Sys2Proof/Machine/Fetch.lean ====
section
/-! DEFINITION. Fetching and decoding the instruction at the pc (40_cycle.md R86 to R90). -/

namespace Sys2Proof.Machine

/-- The fetch window latch: the three bytes at PC, PC+1 and PC+2 (10_state.md R34). It lives inside one step only. -/
structure Window where
  /-- the opcode byte, at PC -/
  op : Byte
  /-- operand a, at PC+1 -/
  a : Byte
  /-- operand b, at PC+2 -/
  b : Byte
  deriving DecidableEq, Repr

/-- Does the whole window lie in memory (40_cycle.md R86)? -/
def State.windowFits (s : State) : Bool := decide (s.pc.toNat + 2 ≤ 255)

/-- The three one-byte reads of a fetch, in order (40_cycle.md R87, 20_memory.md R51). -/
def State.fetchWindow (s : State) : Window :=
  { op := s.memRead s.pc, a := s.memRead (s.pc + 1), b := s.memRead (s.pc + 2) }

/-- What a fetch gives: the instruction to execute, or the fatal cause with its info. -/
inductive Fetched where
  /-- the identified instruction -/
  | instr (i : Instr)
  /-- the fetch or the decode raises a cause -/
  | raises (cause : FaultCause) (info : Nat)
  deriving DecidableEq, Repr

/-- The instruction of a window, or DecodeError with info 0 (40_cycle.md R88 to R90). -/
def Window.identify (w : Window) : Fetched :=
  match decodeWindow w.op w.a w.b with
  | .ok i => .instr i
  | .error _ => .raises .decodeError 0

/-- The range check, the fetch and the decode of one step: AddressError with `PC + 2` as info if the window does not fit, and
nothing is read (40_cycle.md R86). -/
def State.fetchInstr (s : State) : Fetched :=
  if s.windowFits then s.fetchWindow.identify else .raises .addressError (s.pc.toNat + 2)

/-- Place three bytes where a step fetches, and set what the fetch needs: the core RUNNING with no fault record, and a pc whose
window lies in memory (the pc is kept where its own does, else it is 0). This stands for the host's `load` and `run`
(log entry 5). -/
def State.placeWindow (s : State) (w : Window) : State :=
  let start := if s.windowFits then s.pc else Config.pcReset
  ((({ s with status := .running, fault := none, pc := start }).memWrite start w.op).memWrite (start + 1) w.a).memWrite
    (start + 2) w.b

end Sys2Proof.Machine
end

