-- ==== Sys2Proof/Machine/Step.lean ====
section
/-! DEFINITION. One step of the core (40_cycle.md R85, R95), and the placing of an instruction where a step fetches. -/

namespace Sys2Proof.Machine

/-- `step`: enabled only when RUNNING (40_cycle.md R85). It fetches and decodes (R86 to R90), then executes (R91 to R94); a fatal
cause of the fetch or the decode enters FAULTED (60_exceptions.md R156). -/
def step (s : State) : Host.Outcome State Fault Refusal :=
  match s.status with
  | .running =>
    match s.fetchInstr with
    | .instr i => exec i s
    | .raises cause info => .next (s.raise cause info)
  | .idle => .next s.rest
  | .halted => .next s.rest
  | .faulted => .next s.rest

/-- The state with the instruction of an opcode-table word stored where `step` fetches its next one, and the core RUNNING. -/
def State.withFetchWord (s : State) (nbits w : Nat) : State :=
  s.placeWindow { op := tableWordByte nbits w 0, a := tableWordByte nbits w 1, b := tableWordByte nbits w 2 }

end Sys2Proof.Machine
end

