-- ==== Sys2Proof/Machine/Assembler.lean ====
section
/-! DEFINITION. The assembler form in which the spec writes programs (30_encoding.md R80, R81; decision D29): upper-case mnemonics,
registers `R0`..`R7`, immediates in decimal, hex or binary, `;` between instructions, and `name:` for a label. No part of a step
uses it. A text outside the form assembles to nothing; where R80 gives no detail of the form, log entry 13 says what is taken. -/

namespace Sys2Proof.Machine

/-! ### Splitting a text -/

/-- A space of the text: between a mnemonic and its operands, and around a comma, a colon or a separator. -/
def isBlank (c : Char) : Bool := c == ' ' || c == '\t'

/-- A separator of statements: `;`, or the end of a line (30_encoding.md R80). -/
def isSeparator (c : Char) : Bool := c == ';' || c == '\n'

/-- The parts of a text between the characters that satisfy `sep`: at least one part, possibly empty. -/
def splitText (sep : Char → Bool) : List Char → List (List Char)
  | [] => [[]]
  | c :: cs =>
    if sep c then [] :: splitText sep cs
    else
      match splitText sep cs with
      | [] => [[c]]
      | p :: ps => (c :: p) :: ps

/-- A text without the blanks at its two ends. -/
def trimText (cs : List Char) : List Char := ((cs.dropWhile isBlank).reverse.dropWhile isBlank).reverse

/-! ### Operands (30_encoding.md R80) -/

/-- The value of a digit, up to `f` or `F` for 15. -/
def digitValue (c : Char) : Option Nat :=
  if '0'.toNat ≤ c.toNat ∧ c.toNat ≤ '9'.toNat then some (c.toNat - '0'.toNat)
  else if 'a'.toNat ≤ c.toNat ∧ c.toNat ≤ 'f'.toNat then some (c.toNat - 'a'.toNat + 10)
  else if 'A'.toNat ≤ c.toNat ∧ c.toNat ≤ 'F'.toNat then some (c.toNat - 'A'.toNat + 10)
  else none

/-- Go on reading digits of a base, the most significant first, from a value. -/
def readDigits (base : Nat) : Nat → List Char → Option Nat
  | acc, [] => some acc
  | acc, c :: cs =>
    match digitValue c with
    | some d => if d < base then readDigits base (base * acc + d) cs else none
    | none => none

/-- A number in decimal (`8`), hex (`0x08`) or binary (`0b00001000`) (30_encoding.md R80). -/
def readNumber : List Char → Option Nat
  | '0' :: 'x' :: c :: cs => readDigits 16 0 (c :: cs)
  | '0' :: 'b' :: c :: cs => readDigits 2 0 (c :: cs)
  | c :: cs => readDigits 10 0 (c :: cs)
  | [] => none

/-- The operand byte of a register written `R0`..`R7` (30_encoding.md R80, R81). -/
def readRegister : List Char → Option Byte
  | ['R', d] =>
    match digitValue d with
    | some k => assembleRegister k
    | none => none
  | _ => none

/-! ### Statements -/

/-- One item of an assembler text. -/
inductive AsmItem where
  /-- a label, which stands for the address of what follows it -/
  | label (name : List Char)
  /-- an instruction -/
  | instr (i : Instr)
  /-- `LDI Ra, name`: an immediate written as a label -/
  | ldiLabel (a : Byte) (name : List Char)
  deriving DecidableEq, Repr

/-- May a label be so named: it is not empty, holds no blank and does not begin with a digit? -/
def isLabelName : List Char → Bool
  | [] => false
  | c :: cs => !(c.isDigit) && (c :: cs).all (fun d => !(isBlank d))

/-- `LDI Ra, imm`: the immediate is a number in 0..255, never reduced (42_ldi_prn_halt.md R121), or a label. -/
def readLdi (a : Byte) (imm : List Char) : Option AsmItem :=
  match readNumber imm with
  | some v => (assembleImmediate v).map (fun b => .instr (.ldi a b))
  | none => if isLabelName imm then some (.ldiLabel a imm) else none

/-- The one-register instructions by mnemonic (30_encoding.md R80). -/
def unaryMnemonic : List Char → Option (Byte → Instr)
  | ['P', 'U', 'S', 'H'] => some .push
  | ['P', 'O', 'P'] => some .pop
  | ['P', 'R', 'N'] => some .prn
  | ['C', 'A', 'L', 'L'] => some .call
  | _ => none

/-- The two-register instructions by mnemonic (30_encoding.md R80). -/
def binaryMnemonic : List Char → Option (Byte → Byte → Instr)
  | ['A', 'D', 'D'] => some .add
  | ['S', 'U', 'B'] => some .sub
  | ['M', 'U', 'L'] => some .mul
  | ['D', 'I', 'V'] => some .div
  | ['M', 'O', 'D'] => some .mod
  | _ => none

/-- The instructions of no operand by mnemonic (30_encoding.md R80). -/
def nullaryMnemonic : List Char → Option Instr
  | ['H', 'A', 'L', 'T'] => some .halt
  | ['R', 'E', 'T'] => some .ret
  | _ => none

/-- An instruction from its mnemonic and its operands: the forms at the end of 30_encoding.md R80. -/
def readForm (mnemonic : List Char) : List (List Char) → Option AsmItem
  | [] => (nullaryMnemonic mnemonic).map .instr
  | [x] =>
    match unaryMnemonic mnemonic, readRegister x with
    | some mk, some a => some (.instr (mk a))
    | _, _ => none
  | [x, y] =>
    match readRegister x with
    | none => none
    | some a =>
      if mnemonic = ['L', 'D', 'I'] then readLdi a y
      else
        match binaryMnemonic mnemonic, readRegister y with
        | some mk, some b => some (.instr (mk a b))
        | _, _ => none
  | _ :: _ :: _ :: _ => none

/-- One instruction's text: the mnemonic, then the operands it uses, separated by a comma (30_encoding.md R80). -/
def readInstruction (cs : List Char) : Option AsmItem :=
  let rest := trimText (cs.dropWhile (fun c => !(isBlank c)))
  readForm (cs.takeWhile (fun c => !(isBlank c)))
    (if rest.isEmpty then [] else (splitText (· == ',') rest).map trimText)

/-- One statement's text, given as its parts between colons: every part but the last is a label, and the last is an instruction or
empty. -/
def readStatement : List (List Char) → Option (List AsmItem)
  | [] => some []
  | [last] => if (trimText last).isEmpty then some [] else (readInstruction (trimText last)).map (fun i => [i])
  | name :: next :: parts =>
    if isLabelName (trimText name) then (readStatement (next :: parts)).map (.label (trimText name) :: ·) else none

/-- All the statements of a text. -/
def readStatements : List (List Char) → Option (List AsmItem)
  | [] => some []
  | p :: ps =>
    match readStatement (splitText (· == ':') p), readStatements ps with
    | some xs, some ys => some (xs ++ ys)
    | _, _ => none

/-! ### Addresses and bytes (30_encoding.md R79 to R81) -/

/-- The number of bytes an item assembles to: none for a label, n + 1 for an instruction (30_encoding.md R79). -/
def AsmItem.size : AsmItem → Nat
  | .label _ => 0
  | .instr i => opN i.opcode + 1
  | .ldiLabel _ _ => opN Opcode.ldi + 1

/-- The addresses that the labels of a name stand for, in a text whose first byte is at `addr`. -/
def labelAddresses (name : List Char) : Nat → List AsmItem → List Nat
  | _, [] => []
  | addr, x :: xs => (if x = .label name then [addr] else []) ++ labelAddresses name (addr + x.size) xs

/-- The bytes of an item, within the whole text: the opcode byte, then exactly n operand bytes (30_encoding.md R81). An immediate
written as a label is that label's address. -/
def AsmItem.bytes (program : List AsmItem) : AsmItem → Option (List Byte)
  | .label _ => some []
  | .instr i => assemble i
  | .ldiLabel a name =>
    match labelAddresses name Config.loadBase program with
    | [addr] => (assembleImmediate addr).bind (fun b => assemble (.ldi a b))
    | _ => none

/-- The bytes of some items of a program, in order. -/
def itemsBytes (program : List AsmItem) : List AsmItem → Option (List Byte)
  | [] => some []
  | x :: xs =>
    match x.bytes program, itemsBytes program xs with
    | some bs, some cs => some (bs ++ cs)
    | _, _ => none

/-- The bytes that an assembler text stands for, its first at address 0, or nothing for a text outside the form of
30_encoding.md R80. -/
def assembleText (text : List Char) : Option (List Byte) :=
  match readStatements (splitText isSeparator text) with
  | some items => itemsBytes items items
  | none => none

/-! ### Writing an instruction down -/

/-- A register operand in the assembler form: `R` and its number. -/
def registerText (a : Byte) : List Char := 'R' :: Nat.toDigits 10 a.toNat

/-- An instruction in the assembler form, its immediate in decimal (30_encoding.md R80). -/
def instrText (i : Instr) : List Char :=
  i.mnemonic.toList ++
    match i with
    | .halt => []
    | .ret => []
    | .push a => ' ' :: registerText a
    | .pop a => ' ' :: registerText a
    | .prn a => ' ' :: registerText a
    | .call a => ' ' :: registerText a
    | .ldi a imm => ' ' :: registerText a ++ ',' :: ' ' :: Nat.toDigits 10 imm.toNat
    | .add a b => ' ' :: registerText a ++ ',' :: ' ' :: registerText b
    | .sub a b => ' ' :: registerText a ++ ',' :: ' ' :: registerText b
    | .mul a b => ' ' :: registerText a ++ ',' :: ' ' :: registerText b
    | .div a b => ' ' :: registerText a ++ ',' :: ' ' :: registerText b
    | .mod a b => ' ' :: registerText a ++ ',' :: ' ' :: registerText b

end Sys2Proof.Machine
end

