-- ==== Sys2Proof/Machine/Consolidated.lean ====
section
/-! DEFINITION. The consolidated step of 40_cycle.md R95, written down from its pseudocode a second time: over raw bytes, without
the decoder, the instruction type or the meanings, with arithmetic on plain numbers reduced `mod 256` where the pseudocode does.
It is a reference: a statement says that `step` and it agree. -/

namespace Sys2Proof.Machine

/-- The register a checked operand byte selects (a byte of 8 or more never reaches it). -/
def checkedIndex (b : Byte) : RegIdx := ⟨b.toNat % 8, Nat.mod_lt _ (by decide)⟩

/-- The operands an opcode byte uses as register indices, a first: the table of 40_cycle.md R91. -/
def regopsOf (op a b : Byte) : List Byte :=
  if op ∈ [0xA0#8, 0xA1#8, 0xA2#8, 0xA3#8, 0xA4#8] then [a, b]
  else if op ∈ [0x82#8, 0x47#8, 0x45#8, 0x46#8, 0x50#8] then [a]
  else []

/-- A number reduced to a byte: `mod 256` (00_scope.md R10). -/
def mod256 (n : Nat) : Byte := BitVec.ofNat 8 (n % 256)

/-- `handler(op)(a, b)`: the pseudocode of each instruction rule, up to but without the generic pc advance. -/
def handlerByOpcode (op a b : Byte) (s : State) : Except (FaultCause × Nat) State :=
  let ra := checkedIndex a
  let rb := checkedIndex b
  let xa := (s.readReg ra).toNat
  let xb := (s.readReg rb).toNat
  let sp := s.sp.toNat
  if op = 0xA0#8 then .ok (s.writeReg ra (mod256 (xa + xb)))
  else if op = 0xA1#8 then .ok (s.writeReg ra (mod256 (xa + 256 - xb)))
  else if op = 0xA2#8 then .ok (s.writeReg ra (mod256 (xa * xb)))
  else if op = 0xA3#8 then
    if xb = 0 then .ok (s.report { pc := s.pc, opcode := 0xA3#8, a := a, b := b })
    else .ok (s.writeReg ra (mod256 (xa / xb)))
  else if op = 0xA4#8 then
    if xb = 0 then .ok (s.report { pc := s.pc, opcode := 0xA4#8, a := a, b := b })
    else .ok (s.writeReg ra (mod256 (xa % xb)))
  else if op = 0x82#8 then .ok (s.writeReg ra b)
  else if op = 0x47#8 then .ok (s.emit (s.readReg ra))
  else if op = 0x01#8 then .ok s.halt
  else if op = 0x45#8 then
    if sp ≤ s.params.stackMin.val then .error (.stackOverflow, sp)
    else
      let s1 := s.writeReg spIdx (mod256 (sp + 255))
      .ok (s1.memWrite s1.sp (s1.readReg ra))
  else if op = 0x46#8 then
    if sp = 244 then .error (.stackUnderflow, sp)
    else
      let s1 := s.writeReg ra (s.memRead s.sp)
      .ok (s1.writeReg spIdx (mod256 (s1.sp.toNat + 1)))
  else if op = 0x50#8 then
    if s.params.callChecksOverflow = true ∧ sp ≤ s.params.stackMin.val then .error (.stackOverflow, sp)
    else
      let s1 := s.writeReg spIdx (mod256 (sp + 255))
      let s2 := s1.memWrite s1.sp (mod256 (s.pc.toNat + 2))
      .ok (s2.setPc (s2.readReg ra))
  else
    let t := s.memRead s.sp
    .ok ((s.writeReg spIdx (mod256 (sp + 1))).setPc t)

/-- `step()` of 40_cycle.md R95, for a core that is RUNNING. -/
def consolidatedStep (s : State) : State :=
  let pc := s.pc.toNat
  if pc + 2 > 255 then s.raise .addressError (pc + 2)
  else
    let op := s.memRead s.pc
    let a := s.memRead (mod256 (pc + 1))
    let b := s.memRead (mod256 (pc + 2))
    let n := op.toNat / 64
    let isAlu := op.toNat / 32 % 2
    let setsPc := op.toNat / 16 % 2
    if isAlu = 1 ∧ op ∉ [0xA0#8, 0xA1#8, 0xA2#8, 0xA3#8, 0xA4#8] then s.raise .decodeError 0
    else if isAlu = 0 ∧ op ≠ 0x01#8 ∧ op ∉ [0x11#8, 0x45#8, 0x46#8, 0x47#8, 0x50#8, 0x82#8] then s.raise .decodeError 0
    else
      match (regopsOf op a b).find? (fun r => decide (r.toNat > 7)) with
      | some r => s.raise .registerIndexError r.toNat
      | none =>
        if setsPc = 0 ∧ op ≠ 0x01#8 ∧ pc + n + 1 > 255 then s.raise .addressError (pc + n + 1)
        else
          match handlerByOpcode op a b s with
          | .error e => s.raise e.1 e.2
          | .ok t => if op = 0x01#8 then t else if setsPc = 0 then t.setPc (mod256 (pc + n + 1)) else t

end Sys2Proof.Machine
end

