-- ==== Sys2Proof/Machine/HostPort.lean ====
section
/-! DEFINITION. What the host can do to the core: the three commands, reading the state, and its side of the output port
(10_state.md R37 to R40, 40_cycle.md R97, 70_reset_and_hazards.md R184). They happen between steps and are no part of a step
(40_cycle.md R96). -/

namespace Sys2Proof.Machine

/-- The host's commands (10_state.md R37). -/
inductive HostCommand where
  /-- construction (70_reset_and_hazards.md R175) -/
  | reset
  /-- load a program's bytes from address 0 (10_state.md R40) -/
  | load (bytes : List Byte)
  /-- start stepping (40_cycle.md R97) -/
  | run
  deriving DecidableEq, Repr

/-- What the host is told. -/
inductive HostReply where
  /-- the command took effect -/
  | accepted
  /-- the command is refused and nothing changes -/
  | refused
  /-- the command has no effect: `run` while RUNNING (40_cycle.md R97) -/
  | noEffect
  deriving DecidableEq, Repr

/-- `reset`: every piece of state takes its value of 10_state.md R41, in any status; the construction parameters stay
(70_reset_and_hazards.md R175). -/
def hostReset (s : State) : HostReply × State := (.accepted, State.construct s.params)

/-- `load(bytes)`: accepted only in IDLE and for at most 256 bytes; it writes cells 0..L-1 and nothing else (10_state.md R40). -/
def hostLoad (bytes : List Byte) (s : State) : HostReply × State :=
  if s.status = .idle ∧ bytes.length ≤ Config.memSize then
    (.accepted, { s with mem := Memory.writeBytes s.mem Config.loadBase bytes })
  else (.refused, s)

/-- `run`: IDLE or HALTED to RUNNING; refused in FAULTED; no effect in RUNNING (40_cycle.md R97). -/
def hostRun (s : State) : HostReply × State :=
  match s.status with
  | .idle => (.accepted, { s with status := .running })
  | .halted => (.accepted, { s with status := .running })
  | .faulted => (.refused, s)
  | .running => (.noEffect, s)

/-- The host's command as an atomic transition of the whole state (10_state.md R37). -/
def hostCommand (c : HostCommand) (s : State) : HostReply × State :=
  match c with
  | .reset => hostReset s
  | .load bytes => hostLoad bytes s
  | .run => hostRun s

/-- Reading the state is possible only while the core is not RUNNING, and changes nothing (70_reset_and_hazards.md R184). -/
def hostRead (s : State) : Option State := if s.status = .running then none else some s

/-- The exit code the host reports at the end of a run, for a map `EXIT_CODE`: 0 for HALTED, the cause's code for FAULTED, none
while the run has not ended (60_exceptions.md R166). -/
def State.exitCode (s : State) (codes : ExitCodes) : Option Int :=
  match s.status, s.fault with
  | .halted, _ => some 0
  | .faulted, some f =>
    some (match f.cause with
      | .decodeError => codes.decodeError
      | .stackOverflow => codes.stackOverflow
      | .stackUnderflow => codes.stackUnderflow
      | .addressError => codes.addressError
      | .registerIndexError => codes.registerIndexError)
  | _, _ => none

/-- The number of a fatal cause (60_exceptions.md R151). -/
def FaultCause.code : FaultCause → Nat
  | .decodeError => 1
  | .stackOverflow => 2
  | .stackUnderflow => 3
  | .addressError => 4
  | .registerIndexError => 5

/-- An emitted byte as the host writes it: its decimal digits with no sign, padding or leading zeros, then the line terminator,
whose characters are the host's (42_ldi_prn_halt.md R123). -/
def renderByte (terminator : List Char) (v : Byte) : List Char := Nat.toDigits 10 v.toNat ++ terminator

/-- The text the host has written for the output port (10_state.md R38). -/
def renderOut (terminator : List Char) (out : List Byte) : List Char := out.flatMap (renderByte terminator)

end Sys2Proof.Machine
end

