-- ==== Sys2Proof/Machine/Run.lean ====
section
/-! DEFINITION. A run: while RUNNING, the core repeats `step` (40_cycle.md R97). A run has no step limit (40_cycle.md R99), so it
is given here for any number of steps: a program that never stops is one whose run ends for no number. -/

namespace Sys2Proof.Machine

/-- The state in which the core leaves RUNNING, if it does so within `fuel` steps. -/
def runToEnd : Nat → State → Option State
  | 0, s => if s.status = .running then none else some s
  | fuel + 1, s =>
    if s.status = .running then
      match step s with
      | .next t => runToEnd fuel t
      | .fault _ => none
      | .refused _ => none
    else some s

end Sys2Proof.Machine
end

