-- ==== Sys2Proof/Safety.lean ====
section
/-! DEFINITION. The terms statements use: the invariant of every state, entry into FAULTED written out, what a frame keeps, and the
LIFO law's bookkeeping. -/

namespace Sys2Proof.Machine

/-- The next state of an outcome, if it is one. -/
def nextState? (o : Host.Outcome State Fault Refusal) : Option State :=
  match o with
  | .next t => some t
  | .fault _ => none
  | .refused _ => none

/-- The operand byte of register r (30_encoding.md R81). -/
def regByte (r : RegIdx) : Byte := BitVec.ofNat 8 r.val

/-- The state FAULTED with a cause and info, written out from 60_exceptions.md R156 and 10_state.md R30: only the run state and the
fault record differ. -/
def State.faultedBy (s : State) (cause : FaultCause) (info : Nat) : State :=
  { s with
    status := .faulted
    fault := some { cause := cause, pc := s.pc, opcode := Memory.read s.mem s.pc.toNat, info := info } }

/-- The exceptions of an ALU instruction (41_alu.md R106): RegisterIndexError if a > 7 or b > 7, operand a checked first, and
AddressError if PC = 253. The first is the spec's own choice D6, the second its own choice D4. -/
def AluExceptions (mk : Byte → Byte → Instr) : Prop :=
  (∀ (a b : Byte) (s : State), 8 ≤ a.toNat →
    exec (mk a b) s = .next (s.faultedBy .registerIndexError a.toNat)) ∧
  (∀ (ra : RegIdx) (b : Byte) (s : State), 8 ≤ b.toNat →
    exec (mk (regByte ra) b) s = .next (s.faultedBy .registerIndexError b.toNat)) ∧
  (∀ (ra rb : RegIdx) (s : State), s.pc = 253 →
    exec (mk (regByte ra) (regByte rb)) s = .next (s.faultedBy .addressError 256))

/-- The `fault.info` that 60_exceptions.md R151 gives for each cause, for a fault raised in state s: 0; x[7]; the out-of-range address,
`PC + 2` at the fetch and `PC + 3` at the advance of a three-byte instruction at 253; and the first operand byte that names no
register, operand a before operand b (40_cycle.md R91). -/
def State.infoFits (s : State) (cause : FaultCause) (info : Nat) : Prop :=
  match cause with
  | .decodeError => info = 0
  | .stackOverflow => info = s.sp.toNat
  | .stackUnderflow => info = s.sp.toNat
  | .addressError => (254 ≤ s.pc.toNat ∧ info = s.pc.toNat + 2) ∨ (s.pc.toNat = 253 ∧ info = s.pc.toNat + 3)
  | .registerIndexError =>
    8 ≤ info ∧
      (info = (s.memRead (s.pc + 1)).toNat ∨
        ((s.memRead (s.pc + 1)).toNat < 8 ∧ info = (s.memRead (s.pc + 2)).toNat))

/-- The invariant of every reachable state: memory in canonical form; a fault record exactly in FAULTED (10_state.md R30); and the
record names the pc, which still addresses the faulting instruction, and the byte there (60_exceptions.md R156). -/
def State.Inv (s : State) : Prop :=
  Memory.wf s.mem = true ∧
  (s.fault.isSome = true ↔ s.status = .faulted) ∧
  (∀ f, s.fault = some f → f.pc = s.pc ∧ f.opcode = s.memRead s.pc)

/-- Every register but those listed is unchanged. -/
def State.regsKeptBut (s t : State) (changed : List RegIdx) : Prop :=
  ∀ r : RegIdx, r ∉ changed → t.readReg r = s.readReg r

/-- Every byte of memory is unchanged. -/
def State.memKept (s t : State) : Prop := ∀ addr : Byte, t.memRead addr = s.memRead addr

/-- Every byte of memory but the one at the address stored to is unchanged. -/
def State.memKeptBut (s t : State) (stored : Byte) : Prop :=
  ∀ addr : Byte, addr ≠ stored → t.memRead addr = s.memRead addr

/-- The run state and the fault record are unchanged, or the instruction raised a fatal cause and nothing else changed. -/
def State.runsOnOrFaults (s t : State) : Prop :=
  (t.status = s.status ∧ t.fault = s.fault) ∨ ∃ cause info, t = s.faultedBy cause info

/-- The instructions that may stand between the PUSHes and POPs of 43_stack.md R134, and those PUSHes and POPs: no write of R7 and
no stack operand R7. -/
def inLifoSequence (i : Instr) : Bool :=
  match i with
  | .halt => false
  | .ret => false
  | .call _ => false
  | .push a => a != 7
  | .pop a => a != 7
  | .prn _ => true
  | .ldi a _ => a != 7
  | .add a _ => a != 7
  | .sub a _ => a != 7
  | .mul a _ => a != 7
  | .div a _ => a != 7
  | .mod a _ => a != 7

/-- The LIFO law along a sequence that runs with no fault (43_stack.md R134). `pushed` lists the values pushed and not yet popped, the
last first; `pushes` and `pops` count every PUSH and POP so far. A POP gives the last value of `pushed`; where `pushed` is empty the value
popped is from before the sequence, the law names none, and the sequence goes on. At the end x[7] has moved from its first value `base`
down by the pushes and up by the pops, modulo 256 (43_stack.md R135), and after as many pops as pushes it is back at `base`. -/
def lifoHolds (base : Nat) : List Instr → State → List Byte → (pushes pops : Nat) → Prop
  | [], s, _, pushes, pops =>
    (s.sp.toNat + pushes) % 256 = (base + pops) % 256 ∧ (pushes = pops → s.sp.toNat = base)
  | i :: rest, s, pushed, pushes, pops =>
    ∀ t, exec i s = .next t → t.status ≠ .faulted →
      match i, pushed with
      | .push a, vs => ∀ r, regByte r = a → lifoHolds base rest t (s.readReg r :: vs) (pushes + 1) pops
      | .pop _, [] => lifoHolds base rest t [] pushes (pops + 1)
      | .pop a, v :: vs => ∀ r, regByte r = a → t.readReg r = v ∧ lifoHolds base rest t vs pushes (pops + 1)
      | _, vs => lifoHolds base rest t vs pushes pops

end Sys2Proof.Machine
end

