-- ==== Sys2Proof/Certificates/Slice0/Obligations.lean ====
section
/-! DEFINITION. The statements for the provers. Each docstring names the rule it formalises. Where a clause is the spec's own choice
(a D-row of 92_eei_decisions.md) or the model's (a log entry), the docstring says so. -/

open Sys2Proof Sys2Proof.Machine

/-! ### Encoding and decoding -/

/-- Decoding the encoding of any instruction, at any operand bytes and whatever bytes follow, gives it back and leaves those bytes
(30_encoding.md R65, R68, R79, R81; the byte values are the spec's own, D1). -/
def Obligations.DecodeOfEncode : Prop :=
  ∀ (i : Instr) (rest : List Byte), decode (encode i ++ rest) = .ok (i, rest)

/-- A byte sequence that decodes begins with the encoding of what it decodes to: each instruction has one encoding
(30_encoding.md R65, R68; the byte values are the spec's own, D1). -/
def Obligations.EncodeOfDecode : Prop :=
  ∀ (bytes rest : List Byte) (i : Instr), decode bytes = .ok (i, rest) → bytes = encode i ++ rest

/-- Of the 256 opcode bytes the twelve of 30_encoding.md R72 are instructions, whatever operand bytes stand in the window, and every
other one is rejected as an illegal opcode (30_encoding.md R75, R77, R78; the byte values are the spec's own, D1). -/
def Obligations.TwelveOpcodesRecognised : Prop :=
  ∀ op a b : Byte,
    (op ∈ [0x01#8, 0x11#8, 0x45#8, 0x46#8, 0x47#8, 0x50#8, 0x82#8, 0xA0#8, 0xA1#8, 0xA2#8, 0xA3#8, 0xA4#8] →
      ∃ i, decodeWindow op a b = .ok i ∧ i.opcode = op) ∧
    (op ∉ [0x01#8, 0x11#8, 0x45#8, 0x46#8, 0x47#8, 0x50#8, 0x82#8, 0xA0#8, 0xA1#8, 0xA2#8, 0xA3#8, 0xA4#8] →
      decodeWindow op a b = .error (.illegalOpcode op))

/-- The operand count 3 (30_encoding.md R70): it is the count of exactly the bytes 0xC0 to 0xFF; no instruction has it; every such byte
is a decode error; and no instruction decodes to a length above 3. -/
def Obligations.OperandCountThreeIsIllegal : Prop :=
  (∀ op : Byte, opN op = 3 ↔ 0xC0 ≤ op.toNat) ∧
  (∀ i : Instr, opN i.opcode ≠ 3) ∧
  (∀ op a b : Byte, opN op = 3 → decodeWindow op a b = .error (.illegalOpcode op)) ∧
  (∀ (s : State), s.status = .running → s.pc.toNat ≤ 253 → opN (s.memRead s.pc) = 3 →
    step s = .next (s.faultedBy .decodeError 0)) ∧
  (∀ (bytes rest : List Byte) (i : Instr), decode bytes = .ok (i, rest) → bytes.length ≤ rest.length + 3)

/-- The fields of each instruction's opcode byte: the table of 30_encoding.md R72 (bytes: the spec's own choice D1; n: D2). -/
def Obligations.OpcodeFieldsOfTable : Prop :=
  ∀ i : Instr, (opN i.opcode, opIsAlu i.opcode, opSetsPc i.opcode, opId i.opcode) =
    match i with
    | .halt => (0, false, false, 0b0001#8)
    | .ret => (0, false, true, 0b0001#8)
    | .push _ => (1, false, false, 0b0101#8)
    | .pop _ => (1, false, false, 0b0110#8)
    | .prn _ => (1, false, false, 0b0111#8)
    | .call _ => (1, false, true, 0b0000#8)
    | .ldi _ _ => (2, false, false, 0b0010#8)
    | .add _ _ => (2, true, false, 0b0000#8)
    | .sub _ _ => (2, true, false, 0b0001#8)
    | .mul _ _ => (2, true, false, 0b0010#8)
    | .div _ _ => (2, true, false, 0b0011#8)
    | .mod _ _ => (2, true, false, 0b0100#8)

/-- Words of the spec's worked examples, written out bit by bit, decode to the instructions they stand for (95_test_vectors.md E1, E2,
V-A18, V-S1, V-S9, V-C1, V-R1; the byte values are the spec's own, D1). -/
def Obligations.SampleWordsDecode : Prop :=
  decode [0b10000010#8, 0b00000000#8, 0b00001000#8] = .ok (.ldi 0 8, []) ∧
  decode [0b01000111#8, 0b00000000#8] = .ok (.prn 0, []) ∧
  decode [0b00000001#8] = .ok (.halt, []) ∧
  decode [0b10100010#8, 0b00000000#8, 0b00000001#8] = .ok (.mul 0 1, []) ∧
  decode [0b10100100#8, 0b00000000#8, 0b00000001#8] = .ok (.mod 0 1, []) ∧
  decode [0b01000101#8, 0b00000000#8] = .ok (.push 0, []) ∧
  decode [0b01000110#8, 0b00000001#8] = .ok (.pop 1, []) ∧
  decode [0b01010000#8, 0b00000001#8] = .ok (.call 1, []) ∧
  decode [0b00010001#8] = .ok (.ret, [])

/-- Every well-formed instruction written in the assembler form, its immediate in decimal, assembles to its encoding: the opcode byte and
exactly n operand bytes (30_encoding.md R80, R81; the syntax is the spec's own choice D29, the byte values its own choice D1). -/
def Obligations.InstructionTextAssembles : Prop :=
  ∀ i : Instr, i.wellFormed = true → assembleText (instrText i) = some (encode i)

/-- The window bytes beyond the operand count have no effect on what is decoded: two windows with the same opcode that agree on its
n operand bytes decode alike (30_encoding.md R69). -/
def Obligations.UnusedWindowBytesIgnored : Prop :=
  ∀ op a b a' b' : Byte, (1 ≤ opN op → a = a') → (2 ≤ opN op → b = b') → decodeWindow op a b = decodeWindow op a' b'

/-! ### The step -/

/-- When the window lies in memory and its bytes decode to an instruction, a step of a RUNNING core is `exec` of it on that state,
with nothing around it (40_cycle.md R86 to R93). -/
def Obligations.StepRunsDecodedInstruction : Prop :=
  ∀ (s : State) (i : Instr) (rest : List Byte), s.status = .running → s.pc.toNat ≤ 253 →
    decode [s.memRead s.pc, s.memRead (s.pc + 1), s.memRead (s.pc + 2)] = .ok (i, rest) → step s = exec i s

/-- Where the decoder reads an instruction from an opcode-table word, placing that word makes the very next step execute it, from any
state (the placing stands for the host's `load` and `run`: log entry 5, the model's choice). -/
def Obligations.PlacedWordIsExecuted : Prop :=
  ∀ (s : State) (nbits w : Nat) (i : Instr), decodeTableWord nbits w = some i →
    step (s.withFetchWord nbits w) = exec i (s.withFetchWord nbits w)

/-- A window that reaches beyond address 255 raises AddressError with `PC + 2`, whatever the bytes are, even for a one-byte
instruction (40_cycle.md R86, the spec's own choice D3). -/
def Obligations.FetchBeyondMemoryFaults : Prop :=
  ∀ s : State, s.status = .running → 254 ≤ s.pc.toNat → step s = .next (s.faultedBy .addressError (s.pc.toNat + 2))

/-- An opcode byte with no entry in the dispatch table raises DecodeError with info 0: the core stops in FAULTED, nothing of the step is
committed and PC stays at the illegal byte (40_cycle.md R90). -/
def Obligations.UnregisteredOpcodeFaults : Prop :=
  ∀ s : State, s.status = .running → s.pc.toNat ≤ 253 → s.memRead s.pc ∉ dispatchTable.map Prod.fst →
    step s = .next (s.faultedBy .decodeError 0)

/-- A core that is not RUNNING keeps all its state when it is given a step. That such a step answers the same state is the model's
choice (log entry 4); that the state is kept is 10_state.md R42 and 60_exceptions.md R165. -/
def Obligations.NoStepUnlessRunning : Prop :=
  ∀ s : State, s.status ≠ .running → step s = .next s

/-- Every step answers a next state: no condition stops the machine other than by its run state (60_exceptions.md R150; log entry 3). -/
def Obligations.EveryStepAnswers : Prop :=
  ∀ s : State, ∃ t, step s = .next t

/-- A step of a RUNNING core is the consolidated step of 40_cycle.md R95, transcribed a second time over raw bytes (its checks rest on
the spec's own choices D1 to D6). -/
def Obligations.StepIsConsolidatedStep : Prop :=
  ∀ s : State, s.status = .running → step s = .next (consolidatedStep s)

/-- Faults are precise (60_exceptions.md R156, the spec's own choice D17): where a step of a RUNNING core ends in FAULTED, only the run
state and the fault record differ from before, and the info is the one 60_exceptions.md R151 gives for the cause: of an AddressError the
address computed from PC (the spec's own choices D3 and D4), of a RegisterIndexError the first operand byte in memory that names no
register (the spec's own choice D6), of a stack fault x[7], of a DecodeError 0. -/
def Obligations.FaultedStepIsPrecise : Prop :=
  ∀ s t : State, s.status = .running → step s = .next t → t.status = .faulted →
    ∃ cause info, t = s.faultedBy cause info ∧ s.infoFits cause info

/-- The run-state transitions, complete (40_cycle.md R98; the values IDLE and FAULTED are the spec's own choice D16). -/
def Obligations.RunStateTransitions : Prop :=
  (∀ s : State, (hostCommand .reset s).2.status = .idle) ∧
  (∀ s : State, s.status = .idle → (hostCommand .run s).2.status = .running) ∧
  (∀ s : State, s.status = .halted → (hostCommand .run s).2.status = .running) ∧
  (∀ s : State, s.status = .faulted → hostCommand .run s = (.refused, s)) ∧
  (∀ s t : State, s.status = .running → step s = .next t →
    (t.status = .halted ↔ s.pc.toNat ≤ 253 ∧ s.memRead s.pc = 0x01) ∧
    (t.status = .faulted ↔ ∃ cause info, t = s.faultedBy cause info) ∧
    (t.status = .halted ∨ t.status = .faulted ∨ t.status = .running))

/-- The pc advance (40_cycle.md R94): after a handler that completes, HALT leaves PC; an opcode with `sets_pc = 0` moves it by n + 1; and
where `sets_pc = 1` it is the value the handler wrote, the register's value after the push for CALL and the popped byte for RET. -/
def Obligations.PcAdvance : Prop :=
  ∀ (i : Instr) (s t : State), exec i s = .next t → t.status ≠ .faulted →
    (i = .halt → t.pc = s.pc) ∧
    (i ≠ .halt → opSetsPc i.opcode = false → t.pc.toNat = s.pc.toNat + opN i.opcode + 1) ∧
    (∀ ra, i = .call (regByte ra) → t.pc = t.readReg ra) ∧
    (i = .ret → t.pc = s.memRead (s.readReg 7)) ∧
    (opSetsPc i.opcode = true ↔ i = .ret ∨ ∃ a, i = .call a)

/-! ### Arithmetic -/

/-- ADD (41_alu.md R106), with its encoding (the byte is the spec's own choice D1): the sum reduced modulo 256 into x[a], PC + 3, nothing else changed; and its exceptions (the spec's own choices
D6 and D4). -/
def Obligations.AddInstruction : Prop :=
  (∀ (ra rb : RegIdx) (s : State), s.pc.toNat + 3 ≤ 255 →
    exec (.add (regByte ra) (regByte rb)) s = .next { s with
      regs := s.regs.set ra (BitVec.ofNat 8 (((s.readReg ra).toNat + (s.readReg rb).toNat) % 256))
      pc := BitVec.ofNat 8 (s.pc.toNat + 3) }) ∧
  AluExceptions .add ∧
  (∀ a b : Byte, encode (.add a b) = [0xA0#8, a, b])

/-- SUB (41_alu.md R107), with its encoding (the byte is the spec's own choice D1): the mathematical difference reduced into 0..255, into x[a], PC + 3, nothing else changed; and its exceptions
(the spec's own choices D6 and D4). -/
def Obligations.SubInstruction : Prop :=
  (∀ (ra rb : RegIdx) (s : State), s.pc.toNat + 3 ≤ 255 →
    exec (.sub (regByte ra) (regByte rb)) s = .next { s with
      regs := s.regs.set ra (BitVec.ofNat 8 ((((s.readReg ra).toNat : Int) - (s.readReg rb).toNat) % 256).toNat)
      pc := BitVec.ofNat 8 (s.pc.toNat + 3) }) ∧
  AluExceptions .sub ∧
  (∀ a b : Byte, encode (.sub a b) = [0xA1#8, a, b])

/-- MUL (41_alu.md R108), with its encoding (the byte is the spec's own choice D1): the low 8 bits of the product into x[a], PC + 3, nothing else changed; and its exceptions (the spec's own
choices D6 and D4). -/
def Obligations.MulInstruction : Prop :=
  (∀ (ra rb : RegIdx) (s : State), s.pc.toNat + 3 ≤ 255 →
    exec (.mul (regByte ra) (regByte rb)) s = .next { s with
      regs := s.regs.set ra (BitVec.ofNat 8 (((s.readReg ra).toNat * (s.readReg rb).toNat) % 256))
      pc := BitVec.ofNat 8 (s.pc.toNat + 3) }) ∧
  AluExceptions .mul ∧
  (∀ a b : Byte, encode (.mul a b) = [0xA2#8, a, b])

/-- DIV (41_alu.md R109), with its encoding (the byte is the spec's own choice D1): a zero divisor leaves x[a] and appends the event, any other gives the quotient; PC + 3 and nothing else changed
in both cases; and its exceptions (the spec's own choices D6 and D4; the event's form is its own choice D13). -/
def Obligations.DivInstruction : Prop :=
  (∀ (ra rb : RegIdx) (s : State), s.pc.toNat + 3 ≤ 255 →
    exec (.div (regByte ra) (regByte rb)) s =
      if (s.readReg rb).toNat = 0 then
        .next { s with
          diag := s.diag ++ [{ pc := s.pc, opcode := 0xA3, a := regByte ra, b := regByte rb }]
          pc := BitVec.ofNat 8 (s.pc.toNat + 3) }
      else
        .next { s with
          regs := s.regs.set ra (BitVec.ofNat 8 ((s.readReg ra).toNat / (s.readReg rb).toNat))
          pc := BitVec.ofNat 8 (s.pc.toNat + 3) }) ∧
  AluExceptions .div ∧
  (∀ a b : Byte, encode (.div a b) = [0xA3#8, a, b])

/-- MOD (41_alu.md R110), with its encoding (the byte is the spec's own choice D1): a zero divisor leaves x[a] and appends the event, any other gives the remainder; PC + 3 and nothing else changed
in both cases; and its exceptions (the spec's own choices D6 and D4; the event's form is its own choice D13). -/
def Obligations.ModInstruction : Prop :=
  (∀ (ra rb : RegIdx) (s : State), s.pc.toNat + 3 ≤ 255 →
    exec (.mod (regByte ra) (regByte rb)) s =
      if (s.readReg rb).toNat = 0 then
        .next { s with
          diag := s.diag ++ [{ pc := s.pc, opcode := 0xA4, a := regByte ra, b := regByte rb }]
          pc := BitVec.ofNat 8 (s.pc.toNat + 3) }
      else
        .next { s with
          regs := s.regs.set ra (BitVec.ofNat 8 ((s.readReg ra).toNat % (s.readReg rb).toNat))
          pc := BitVec.ofNat 8 (s.pc.toNat + 3) }) ∧
  AluExceptions .mod ∧
  (∀ a b : Byte, encode (.mod a b) = [0xA4#8, a, b])

/-- For a divisor d > 0 and a dividend v, the q that DIV leaves and the r that MOD leaves satisfy v = q * d + r and r < d
(41_alu.md R112). -/
def Obligations.QuotientAndRemainder : Prop :=
  ∀ (ra rb : RegIdx) (s : State), s.pc.toNat + 3 ≤ 255 → 0 < (s.readReg rb).toNat →
    ∃ tq tr, exec (.div (regByte ra) (regByte rb)) s = .next tq ∧ exec (.mod (regByte ra) (regByte rb)) s = .next tr ∧
      (s.readReg ra).toNat = (tq.readReg ra).toNat * (s.readReg rb).toNat + (tr.readReg ra).toNat ∧
      (tr.readReg ra).toNat < (s.readReg rb).toNat

/-- The frame of the five ALU operations (41_alu.md R111), for every operand byte: no memory byte and no output changes, no register but
x[a], x[b] included unless b = a; PC moves by 3 unless the instruction faults. The diagnostic port is unchanged but for a DIV or MOD by
zero, which appends one event (60_exceptions.md R154; the port and its event are the spec's own choice D13). The construction parameters,
a field of the model's own (log entry 2), are unchanged. -/
def Obligations.AluFrame : Prop :=
  ∀ mk ∈ [Instr.add, Instr.sub, Instr.mul, Instr.div, Instr.mod],
    ∀ (a b : Byte) (s t : State), exec (mk a b) s = .next t →
      (∀ r : RegIdx, regByte r ≠ a → t.readReg r = s.readReg r) ∧
      s.memKept t ∧ t.out = s.out ∧ t.params = s.params ∧ s.runsOnOrFaults t ∧
      (t.status ≠ .faulted → t.pc.toNat = s.pc.toNat + 3) ∧
      (t.diag = s.diag ∨
        ((mk a b = .div a b ∨ mk a b = .mod a b) ∧ (∃ rb, regByte rb = b ∧ s.readReg rb = 0) ∧
          t.diag = s.diag ++ [{ pc := s.pc, opcode := (mk a b).opcode, a := a, b := b }]))

/-! ### LDI, PRN and HALT -/

/-- LDI (42_ldi_prn_halt.md R120), with its encoding (the byte is the spec's own choice D1): the immediate byte, any value, unchanged into x[a], PC + 3, nothing else changed; RegisterIndexError if
a > 7 and AddressError if PC = 253 (the spec's own choices D6 and D4). -/
def Obligations.LdiInstruction : Prop :=
  (∀ (ra : RegIdx) (imm : Byte) (s : State), s.pc.toNat + 3 ≤ 255 →
    exec (.ldi (regByte ra) imm) s =
      .next { s with regs := s.regs.set ra imm, pc := BitVec.ofNat 8 (s.pc.toNat + 3) }) ∧
  (∀ (a imm : Byte) (s : State), 8 ≤ a.toNat →
    exec (.ldi a imm) s = .next (s.faultedBy .registerIndexError a.toNat)) ∧
  (∀ (ra : RegIdx) (imm : Byte) (s : State), s.pc = 253 →
    exec (.ldi (regByte ra) imm) s = .next (s.faultedBy .addressError 256)) ∧
  (∀ a imm : Byte, encode (.ldi a imm) = [0x82#8, a, imm])

/-- PRN (42_ldi_prn_halt.md R122), with its encoding (the byte is the spec's own choice D1): x[a] appended to the output port, PC + 2, no register or memory changed; RegisterIndexError if a > 7
(the spec's own choice D6). -/
def Obligations.PrnInstruction : Prop :=
  (∀ (ra : RegIdx) (s : State), s.pc.toNat + 2 ≤ 255 →
    exec (.prn (regByte ra)) s =
      .next { s with out := s.out ++ [s.readReg ra], pc := BitVec.ofNat 8 (s.pc.toNat + 2) }) ∧
  (∀ (a : Byte) (s : State), 8 ≤ a.toNat → exec (.prn a) s = .next (s.faultedBy .registerIndexError a.toNat)) ∧
  (∀ a : Byte, encode (.prn a) = [0x47#8, a])

/-- HALT (42_ldi_prn_halt.md R124), with its encoding (the byte is the spec's own choice D1): only the run state changes; and a HALT byte at address 254 or 255 raises AddressError at its fetch (the
spec's own choice D3). -/
def Obligations.HaltInstruction : Prop :=
  (∀ s : State, exec .halt s = .next { s with status := .halted }) ∧
  (∀ s : State, s.status = .running → s.pc.toNat ≤ 253 → s.memRead s.pc = 0x01 →
    step s = .next { s with status := .halted }) ∧
  (∀ s : State, s.status = .running → 254 ≤ s.pc.toNat → s.memRead s.pc = 0x01 →
    step s = .next (s.faultedBy .addressError (s.pc.toNat + 2))) ∧
  encode .halt = [0x01#8]

/-- The frame of LDI, PRN and HALT, for every operand byte (10_state.md R24, 20_memory.md R48): LDI changes no register but x[a], PRN and
HALT none; no memory byte and no diagnostic event changes; only PRN adds to the output port, x[a] at its end. -/
def Obligations.LdiPrnHaltFrame : Prop :=
  (∀ (a imm : Byte) (s t : State), exec (.ldi a imm) s = .next t →
    (∀ r : RegIdx, regByte r ≠ a → t.readReg r = s.readReg r) ∧
    s.memKept t ∧ t.out = s.out ∧ t.diag = s.diag ∧ t.params = s.params ∧ s.runsOnOrFaults t) ∧
  (∀ (a : Byte) (s t : State), exec (.prn a) s = .next t →
    s.regsKeptBut t [] ∧ s.memKept t ∧ t.diag = s.diag ∧ t.params = s.params ∧ s.runsOnOrFaults t ∧
    (t.out = s.out ∨ ∃ ra, regByte ra = a ∧ t.out = s.out ++ [s.readReg ra])) ∧
  (∀ s t : State, exec .halt s = .next t →
    s.regsKeptBut t [] ∧ s.memKept t ∧ t.out = s.out ∧ t.diag = s.diag ∧ t.params = s.params ∧ t.pc = s.pc ∧ t.fault = s.fault)

/-! ### The stack -/

/-- PUSH (43_stack.md R131), with its encoding (the byte is the spec's own choice D1): above the bound, x[7] is decremented and x[a], read after that, is stored at the new x[7], PC + 2; at or below
`STACK_MIN`, StackOverflow with x[7] and nothing written; RegisterIndexError if a > 7 (the spec's own choice D6). -/
def Obligations.PushInstruction : Prop :=
  (∀ (ra : RegIdx) (s : State), s.pc.toNat + 2 ≤ 255 → s.params.stackMin.val < s.sp.toNat →
    exec (.push (regByte ra)) s = .next { s with
      regs := s.regs.set 7 (s.sp - 1)
      mem := Memory.write s.mem (s.sp.toNat - 1) ((s.regs.set 7 (s.sp - 1))[ra])
      pc := BitVec.ofNat 8 (s.pc.toNat + 2) }) ∧
  (∀ (ra : RegIdx) (s : State), s.pc.toNat + 2 ≤ 255 → s.sp.toNat ≤ s.params.stackMin.val →
    exec (.push (regByte ra)) s = .next (s.faultedBy .stackOverflow s.sp.toNat)) ∧
  (∀ (a : Byte) (s : State), 8 ≤ a.toNat → exec (.push a) s = .next (s.faultedBy .registerIndexError a.toNat)) ∧
  (∀ a : Byte, encode (.push a) = [0x45#8, a])

/-- POP (43_stack.md R132), with its encoding (the byte is the spec's own choice D1), for a destination other than R7: the byte at x[7] goes to x[a] and x[7] is incremented modulo 256, PC + 2; at
x[7] = 0xF4, and only there, StackUnderflow with x[7] and nothing changed; RegisterIndexError if a > 7 (the spec's own choice D6). For R7
as the destination, x[7] becomes the loaded byte plus one (43_stack.md R133, the spec's own choice D11). -/
def Obligations.PopInstruction : Prop :=
  (∀ (ra : RegIdx) (s : State), ra ≠ 7 → s.pc.toNat + 2 ≤ 255 → s.sp ≠ 0xF4 →
    exec (.pop (regByte ra)) s = .next { s with
      regs := (s.regs.set ra (s.memRead s.sp)).set 7 (BitVec.ofNat 8 ((s.sp.toNat + 1) % 256))
      pc := BitVec.ofNat 8 (s.pc.toNat + 2) }) ∧
  (∀ s : State, s.pc.toNat + 2 ≤ 255 → s.sp ≠ 0xF4 →
    exec (.pop 7) s = .next { s with
      regs := s.regs.set 7 (BitVec.ofNat 8 (((s.memRead s.sp).toNat + 1) % 256))
      pc := BitVec.ofNat 8 (s.pc.toNat + 2) }) ∧
  (∀ (ra : RegIdx) (s : State), s.pc.toNat + 2 ≤ 255 → s.sp = 0xF4 →
    exec (.pop (regByte ra)) s = .next (s.faultedBy .stackUnderflow 0xF4)) ∧
  (∀ (a : Byte) (s : State), 8 ≤ a.toNat → exec (.pop a) s = .next (s.faultedBy .registerIndexError a.toNat)) ∧
  (∀ a : Byte, encode (.pop a) = [0x46#8, a])

/-- PUSH R7 stores the decremented pointer at the address it points to (43_stack.md R133, the spec's own choice D11). -/
def Obligations.PushOfStackPointer : Prop :=
  ∀ s : State, s.pc.toNat + 2 ≤ 255 → s.params.stackMin.val < s.sp.toNat →
    ∃ t, exec (.push 7) s = .next t ∧ t.sp = s.sp - 1 ∧ t.memRead (s.sp - 1) = s.sp - 1

/-- The LIFO law (43_stack.md R134): along any sequence of PUSH and POP with no fault, with no write of R7 between them and no operand R7
of theirs, every POP gives the value of the most recent PUSH not yet popped, and x[7] has moved down by the pushes and up by the pops,
modulo 256 (43_stack.md R135, the spec's own choice D5), so that after equal numbers it is back. A sequence may pop values from before
it: of such a value the law says nothing, of x[7] it says the same. -/
def Obligations.LifoLaw : Prop :=
  ∀ (is : List Instr) (s : State), (∀ i ∈ is, inLifoSequence i = true) → lifoHolds s.sp.toNat is s [] 0 0

/-- The frame of PUSH and CALL, for every operand byte (10_state.md R24, 20_memory.md R48): no register but x[7] changes, and no byte of
memory but the one at the decremented x[7], the address stored to. -/
def Obligations.PushCallFrame : Prop :=
  ∀ mk ∈ [Instr.push, Instr.call], ∀ (a : Byte) (s t : State), exec (mk a) s = .next t →
    s.regsKeptBut t [7] ∧ s.memKeptBut t s.decSp.sp ∧
    t.out = s.out ∧ t.diag = s.diag ∧ t.params = s.params ∧ s.runsOnOrFaults t

/-- The frame of POP and RET, for every operand byte (10_state.md R24, 20_memory.md R48): no register but x[a] and x[7] changes, for RET
x[7] alone; no byte of memory does, so the popped cell keeps its byte. -/
def Obligations.PopRetFrame : Prop :=
  (∀ (a : Byte) (s t : State), exec (.pop a) s = .next t →
    (∀ r : RegIdx, regByte r ≠ a → r ≠ 7 → t.readReg r = s.readReg r) ∧
    s.memKept t ∧ t.out = s.out ∧ t.diag = s.diag ∧ t.params = s.params ∧ s.runsOnOrFaults t) ∧
  (∀ s t : State, exec .ret s = .next t →
    s.regsKeptBut t [7] ∧
    s.memKept t ∧ t.out = s.out ∧ t.diag = s.diag ∧ t.params = s.params ∧ t.status = s.status ∧ t.fault = s.fault)

/-! ### Call and return -/

/-- CALL (44_call_ret.md R140), with its encoding (the byte is the spec's own choice D1): x[7] is decremented modulo 256, PC + 2 is stored at the new x[7], and PC becomes x[a] as the push left it;
with `CALL_CHECKS_OVERFLOW`, StackOverflow at or below `STACK_MIN`; RegisterIndexError if a > 7 (the spec's own choice D6). The premise on
PC is that of the fetch (40_cycle.md R86). -/
def Obligations.CallInstruction : Prop :=
  (∀ (ra : RegIdx) (s : State), s.pc.toNat ≤ 253 →
    ¬ (s.params.callChecksOverflow = true ∧ s.sp.toNat ≤ s.params.stackMin.val) →
    exec (.call (regByte ra)) s = .next { s with
      regs := s.regs.set 7 (BitVec.ofNat 8 ((s.sp.toNat + 255) % 256))
      mem := Memory.write s.mem ((s.sp.toNat + 255) % 256) (BitVec.ofNat 8 (s.pc.toNat + 2))
      pc := (s.regs.set 7 (BitVec.ofNat 8 ((s.sp.toNat + 255) % 256)))[ra] }) ∧
  (∀ (ra : RegIdx) (s : State), s.params.callChecksOverflow = true → s.sp.toNat ≤ s.params.stackMin.val →
    exec (.call (regByte ra)) s = .next (s.faultedBy .stackOverflow s.sp.toNat)) ∧
  (∀ (a : Byte) (s : State), 8 ≤ a.toNat → exec (.call a) s = .next (s.faultedBy .registerIndexError a.toNat)) ∧
  (∀ a : Byte, encode (.call a) = [0x50#8, a])

/-- CALL R7 goes to the decremented stack pointer, where the return address stands (44_call_ret.md R141, the spec's own choice D10). -/
def Obligations.CallOfStackPointer : Prop :=
  ∀ s : State, s.pc.toNat ≤ 253 → s.params.callChecksOverflow = false →
    ∃ t, exec (.call 7) s = .next t ∧ t.pc = s.sp - 1 ∧ t.memRead t.pc = s.pc + 2

/-- RET (44_call_ret.md R143), with its encoding (the byte is the spec's own choice D1): PC becomes the byte at x[7] and x[7] is incremented modulo 256, at any x[7]; nothing else changes, and no
stack test is made. -/
def Obligations.RetInstruction : Prop :=
  (∀ s : State, exec .ret s = .next { s with
    regs := s.regs.set 7 (BitVec.ofNat 8 ((s.sp.toNat + 1) % 256))
    pc := Memory.read s.mem s.sp.toNat }) ∧
  encode .ret = [0x11#8]

/-- The call-return law (44_call_ret.md R145): a RET that executes with x[7] equal to the address a CALL at c wrote, that cell unchanged,
sets PC = c + 2 and restores x[7] to its value before the CALL, whatever else the routine did. -/
def Obligations.CallReturnLaw : Prop :=
  ∀ (a : Byte) (s t u : State), s.pc.toNat ≤ 253 → exec (.call a) s = .next t → t.status ≠ .faulted →
    u.sp = t.sp → u.memRead u.sp = t.memRead t.sp →
    (t.memRead t.sp).toNat = s.pc.toNat + 2 ∧
    ∃ v, exec .ret u = .next v ∧ v.pc.toNat = s.pc.toNat + 2 ∧ v.sp = s.sp

/-! ### Checks every instruction makes -/

/-- Before any effect, the first register-index operand of 8 or more, a before b, raises RegisterIndexError with that byte, for every
instruction that has one (40_cycle.md R91, the spec's own choice D6). -/
def Obligations.FirstBadRegisterFaults : Prop :=
  ∀ (i : Instr) (s : State) (b : Byte), i.regOperands.find? (fun r => decide (8 ≤ r.toNat)) = some b →
    exec i s = .next (s.faultedBy .registerIndexError b.toNat)

/-- Before any effect, a well-formed instruction with `sets_pc = 0` other than HALT whose advance would pass 255 raises AddressError with
`PC + n + 1` (40_cycle.md R92, the spec's own choice D4). -/
def Obligations.AdvanceBeyondMemoryFaults : Prop :=
  ∀ (i : Instr) (s : State), i.wellFormed = true → i ≠ .halt → opSetsPc i.opcode = false →
    255 < s.pc.toNat + opN i.opcode + 1 → exec i s = .next (s.faultedBy .addressError (s.pc.toNat + opN i.opcode + 1))

/-! ### Whole-machine rules -/

/-- Only PUSH and CALL write memory, and only at the decremented x[7] (20_memory.md R48): where a step changes the byte at an address, the
opcode byte is one of theirs and the address is x[7] - 1. -/
def Obligations.OnlyPushAndCallWriteMemory : Prop :=
  ∀ (s t : State) (addr : Byte), step s = .next t → t.memRead addr ≠ s.memRead addr →
    (s.memRead s.pc = 0x45 ∨ s.memRead s.pc = 0x50) ∧ addr = s.sp - 1

/-- The output port only grows, by one byte, and only where the opcode byte is PRN's (10_state.md R38, 42_ldi_prn_halt.md R125). -/
def Obligations.OnlyPrnEmits : Prop :=
  ∀ s t : State, step s = .next t → t.out = s.out ∨ (s.memRead s.pc = 0x47 ∧ ∃ v, t.out = s.out ++ [v])

/-- The diagnostic port only grows, by one event at the current pc, and only where the opcode byte is DIV's or MOD's; such a step
completes (10_state.md R39, 60_exceptions.md R154; the port is the spec's own choice D13). -/
def Obligations.OnlyDivisionReports : Prop :=
  ∀ s t : State, step s = .next t → t.diag = s.diag ∨
    ((s.memRead s.pc = 0xA3 ∨ s.memRead s.pc = 0xA4) ∧ t.status = .running ∧ t.regs = s.regs ∧ t.out = s.out ∧
      t.pc.toNat = s.pc.toNat + 3 ∧
      t.diag = s.diag ++ [{ pc := s.pc, opcode := s.memRead s.pc, a := s.memRead (s.pc + 1), b := s.memRead (s.pc + 2) }])

/-- A byte that a PUSH or CALL writes is the byte the very next fetch of that address reads, and every other byte of the next window is
as it was (20_memory.md R58, 70_reset_and_hazards.md R181). -/
def Obligations.WrittenByteIsFetched : Prop :=
  ∀ (s t : State) (i : Instr), exec i s = .next t → t.status ≠ .faulted →
    ∀ v, ((∃ ra, i = .push (regByte ra) ∧ v = t.readReg ra) ∨ ((∃ a, i = .call a) ∧ v = s.pc + 2)) →
    t.fetchWindow =
      { op := if t.pc = s.sp - 1 then v else s.memRead t.pc
        a := if t.pc + 1 = s.sp - 1 then v else s.memRead (t.pc + 1)
        b := if t.pc + 2 = s.sp - 1 then v else s.memRead (t.pc + 2) }

/-- No step and no command of the host changes the construction parameters (00_scope.md R8, conflict C3; the field is the model's own, log
entry 2). -/
def Obligations.ParametersNeverChange : Prop :=
  (∀ s t : State, step s = .next t → t.params = s.params) ∧
  (∀ (c : HostCommand) (s : State), (hostCommand c s).2.params = s.params)

/-- Every step keeps the invariant: memory in canonical form, a fault record exactly in FAULTED, and the record naming the pc and the byte
there (10_state.md R30, 20_memory.md R45, 60_exceptions.md R156; FAULTED and its record are the spec's own choices D16 and D17). -/
def Obligations.StepKeepsInvariant : Prop :=
  ∀ s t : State, s.Inv → step s = .next t → t.Inv

/-- Every command of the host keeps the invariant (10_state.md R37; the invariant's terms as above). -/
def Obligations.HostCommandKeepsInvariant : Prop :=
  ∀ (c : HostCommand) (s : State), s.Inv → (hostCommand c s).2.Inv

/-- The state after reset satisfies the invariant (10_state.md R41). -/
def Obligations.ResetSatisfiesInvariant : Prop := State.reset.Inv

/-! ### Reset and the host -/

/-- `reset`, in any state, sets every piece of state to its value of 10_state.md R41 (70_reset_and_hazards.md R175), and the machine right
after reset has those values; the dispatch table holds the twelve bytes of 30_encoding.md R72 (the spec's own choice D1). -/
def Obligations.ResetValues : Prop :=
  (∀ t : State, (t = State.reset ∨ ∃ s, hostCommand .reset s = (.accepted, t)) →
    (∀ r : RegIdx, t.readReg r = if r = 7 then 0xF4 else 0) ∧ t.pc = 0 ∧ (∀ addr : Byte, t.memRead addr = 0) ∧
    t.status = .idle ∧ t.fault = none ∧ t.out = [] ∧ t.diag = []) ∧
  (∀ s : State, (hostCommand .reset s).1 = .accepted) ∧
  (∀ op : Byte, op ∈ dispatchTable.map Prod.fst ↔
    op ∈ [0x01#8, 0x11#8, 0x45#8, 0x46#8, 0x47#8, 0x50#8, 0x82#8, 0xA0#8, 0xA1#8, 0xA2#8, 0xA3#8, 0xA4#8])

/-- `run` after `reset` with no `load`: the first step raises DecodeError at PC = 0, on the byte 0 (70_reset_and_hazards.md R176). -/
def Obligations.EmptyMemoryFaultsAtOnce : Prop :=
  ∃ t, hostCommand .run State.reset = (.accepted, t) ∧
    ∃ u, step t = .next u ∧ u.status = .faulted ∧ u.fault = some { cause := .decodeError, pc := 0, opcode := 0, info := 0 }

/-- `load(bytes)` (10_state.md R40): accepted exactly in IDLE and for at most 256 bytes; cell i then holds byte i, every other cell keeps
its value and nothing else changes; else the command is refused and has no effect. -/
def Obligations.LoadCommand : Prop :=
  (∀ (bytes : List Byte) (s : State), s.status = .idle → bytes.length ≤ 256 →
    ∃ m, hostCommand (.load bytes) s = (.accepted, { s with mem := m }) ∧
      ∀ addr : Byte, Memory.read m addr.toNat =
        if h : addr.toNat < bytes.length then bytes[addr.toNat] else s.memRead addr) ∧
  (∀ (bytes : List Byte) (s : State), ¬ (s.status = .idle ∧ bytes.length ≤ 256) →
    hostCommand (.load bytes) s = (.refused, s))

/-- `run` (40_cycle.md R97): from IDLE or HALTED the run state becomes RUNNING and nothing else changes; in FAULTED it is refused; in
RUNNING it has no effect; and while RUNNING the core repeats `step`, until it is no longer RUNNING. -/
def Obligations.RunCommand : Prop :=
  (∀ s : State, s.status = .idle ∨ s.status = .halted →
    hostCommand .run s = (.accepted, { s with status := .running })) ∧
  (∀ s : State, s.status = .faulted → hostCommand .run s = (.refused, s)) ∧
  (∀ s : State, s.status = .running → hostCommand .run s = (.noEffect, s)) ∧
  (∀ (n : Nat) (s t : State), s.status = .running → step s = .next t → runToEnd (n + 1) s = runToEnd n t) ∧
  (∀ (n : Nat) (s t : State), runToEnd n s = some t → t.status ≠ .running)

/-- A run has no step limit (40_cycle.md R99): one that ends within n steps ends in the same state whatever larger number is allowed, and
one that ends within no number of steps is RUNNING after every number of them. -/
def Obligations.RunHasNoStepLimit : Prop :=
  (∀ (n m : Nat) (s t : State), runToEnd n s = some t → runToEnd (n + m) s = some t) ∧
  (∀ s : State, (∀ n, runToEnd n s = none) → ∀ n, ∃ t : State, Host.Core.run Sys2Proof.core n s = Host.Outcome.next t ∧ t.status = .running)

/-- After HALT (42_ldi_prn_halt.md R126): PC still addresses the HALT byte; `run` is accepted, the next step executes that HALT again and
gives the same state; and `load` is refused. -/
def Obligations.RunAfterHalt : Prop :=
  ∀ s t : State, s.status = .running → step s = .next t → t.status = .halted →
    t.pc = s.pc ∧ t.memRead t.pc = 0x01 ∧
    (∃ u, hostCommand .run t = (.accepted, u) ∧ step u = .next t) ∧
    (∀ bytes, hostCommand (.load bytes) t = (.refused, t))

/-- FAULTED is terminal (10_state.md R42, the run state being the spec's own choice D16): a step, `run` and `load` leave all state as the
fault left it; `reset` alone leaves FAULTED; and the host can read every part of it. That a step of a core that is not RUNNING answers a
next state at all, the same one, is the model's choice (log entry 4). -/
def Obligations.FaultedIsTerminal : Prop :=
  ∀ s : State, s.status = .faulted →
    step s = .next s ∧
    (∀ c : HostCommand, c ≠ .reset → hostCommand c s = (.refused, s)) ∧
    (hostCommand .reset s).2.status = .idle ∧
    hostRead s = some s

/-- For a map `EXIT_CODE` that meets its constraint, HALTED gives 0 and FAULTED a code that is not 0 and that tells the causes apart
(60_exceptions.md R166, the OPEN parameter of decision D19). -/
def Obligations.ExitCodesTellEndsApart : Prop :=
  ∀ codes : ExitCodes, codes.wf = true →
    (∀ s : State, s.status = .halted → s.exitCode codes = some 0) ∧
    (∀ (s : State) (f : FaultRecord), s.status = .faulted → s.fault = some f → ∃ c, s.exitCode codes = some c ∧ c ≠ 0) ∧
    (∀ (s t : State) (f g : FaultRecord), s.status = .faulted → s.fault = some f → t.status = .faulted → t.fault = some g →
      s.exitCode codes = t.exitCode codes → f.cause = g.cause)
end

