-- ==== Sys2Proof/Laws/Decode.lean ====
section
/-! SUPPORT. The fields of the twelve opcode bytes, and the handler each selects. -/

namespace Sys2Proof

/-! ### Fields (30_encoding.md R72) -/

@[simp] theorem opN_halt : opN Opcode.halt = 0 := by decide
@[simp] theorem opSetsPc_halt : opSetsPc Opcode.halt = false := by decide
@[simp] theorem opIsAlu_halt : opIsAlu Opcode.halt = false := by decide
@[simp] theorem opN_ret : opN Opcode.ret = 0 := by decide
@[simp] theorem opSetsPc_ret : opSetsPc Opcode.ret = true := by decide
@[simp] theorem opIsAlu_ret : opIsAlu Opcode.ret = false := by decide
@[simp] theorem opN_push : opN Opcode.push = 1 := by decide
@[simp] theorem opSetsPc_push : opSetsPc Opcode.push = false := by decide
@[simp] theorem opIsAlu_push : opIsAlu Opcode.push = false := by decide
@[simp] theorem opN_pop : opN Opcode.pop = 1 := by decide
@[simp] theorem opSetsPc_pop : opSetsPc Opcode.pop = false := by decide
@[simp] theorem opIsAlu_pop : opIsAlu Opcode.pop = false := by decide
@[simp] theorem opN_prn : opN Opcode.prn = 1 := by decide
@[simp] theorem opSetsPc_prn : opSetsPc Opcode.prn = false := by decide
@[simp] theorem opIsAlu_prn : opIsAlu Opcode.prn = false := by decide
@[simp] theorem opN_call : opN Opcode.call = 1 := by decide
@[simp] theorem opSetsPc_call : opSetsPc Opcode.call = true := by decide
@[simp] theorem opIsAlu_call : opIsAlu Opcode.call = false := by decide
@[simp] theorem opN_ldi : opN Opcode.ldi = 2 := by decide
@[simp] theorem opSetsPc_ldi : opSetsPc Opcode.ldi = false := by decide
@[simp] theorem opIsAlu_ldi : opIsAlu Opcode.ldi = false := by decide
@[simp] theorem opN_add : opN Opcode.add = 2 := by decide
@[simp] theorem opSetsPc_add : opSetsPc Opcode.add = false := by decide
@[simp] theorem opIsAlu_add : opIsAlu Opcode.add = true := by decide
@[simp] theorem opN_sub : opN Opcode.sub = 2 := by decide
@[simp] theorem opSetsPc_sub : opSetsPc Opcode.sub = false := by decide
@[simp] theorem opIsAlu_sub : opIsAlu Opcode.sub = true := by decide
@[simp] theorem opN_mul : opN Opcode.mul = 2 := by decide
@[simp] theorem opSetsPc_mul : opSetsPc Opcode.mul = false := by decide
@[simp] theorem opIsAlu_mul : opIsAlu Opcode.mul = true := by decide
@[simp] theorem opN_div : opN Opcode.div = 2 := by decide
@[simp] theorem opSetsPc_div : opSetsPc Opcode.div = false := by decide
@[simp] theorem opIsAlu_div : opIsAlu Opcode.div = true := by decide
@[simp] theorem opN_mod : opN Opcode.mod = 2 := by decide
@[simp] theorem opSetsPc_mod : opSetsPc Opcode.mod = false := by decide
@[simp] theorem opIsAlu_mod : opIsAlu Opcode.mod = true := by decide

/-! ### Handlers (40_cycle.md R89) -/

theorem selectHandler_halt : selectHandler Opcode.halt = some (fun _ _ => .halt) := rfl
theorem selectHandler_ret : selectHandler Opcode.ret = some (fun _ _ => .ret) := rfl
theorem selectHandler_push : selectHandler Opcode.push = some (fun a _ => .push a) := rfl
theorem selectHandler_pop : selectHandler Opcode.pop = some (fun a _ => .pop a) := rfl
theorem selectHandler_prn : selectHandler Opcode.prn = some (fun a _ => .prn a) := rfl
theorem selectHandler_call : selectHandler Opcode.call = some (fun a _ => .call a) := rfl
theorem selectHandler_ldi : selectHandler Opcode.ldi = some (fun a b => .ldi a b) := rfl
theorem selectHandler_add : selectHandler Opcode.add = some (fun a b => .add a b) := rfl
theorem selectHandler_sub : selectHandler Opcode.sub = some (fun a b => .sub a b) := rfl
theorem selectHandler_mul : selectHandler Opcode.mul = some (fun a b => .mul a b) := rfl
theorem selectHandler_div : selectHandler Opcode.div = some (fun a b => .div a b) := rfl
theorem selectHandler_mod : selectHandler Opcode.mod = some (fun a b => .mod a b) := rfl

/-- Every selected handler is that of one of the twelve opcode bytes. -/
theorem selectHandler_cases {op : Byte} {h : Handler} (hs : selectHandler op = some h) :
    (op = Opcode.halt ∧ h = fun _ _ => .halt) ∨
    (op = Opcode.ret ∧ h = fun _ _ => .ret) ∨
    (op = Opcode.push ∧ h = fun a _ => .push a) ∨
    (op = Opcode.pop ∧ h = fun a _ => .pop a) ∨
    (op = Opcode.prn ∧ h = fun a _ => .prn a) ∨
    (op = Opcode.call ∧ h = fun a _ => .call a) ∨
    (op = Opcode.ldi ∧ h = fun a b => .ldi a b) ∨
    (op = Opcode.add ∧ h = fun a b => .add a b) ∨
    (op = Opcode.sub ∧ h = fun a b => .sub a b) ∨
    (op = Opcode.mul ∧ h = fun a b => .mul a b) ∨
    (op = Opcode.div ∧ h = fun a b => .div a b) ∨
    (op = Opcode.mod ∧ h = fun a b => .mod a b) := by
  unfold selectHandler at hs
  split at hs
  · simp only [aluTable, lookupHandler] at hs
    repeat' split at hs
    all_goals first | (cases hs; simp_all) | cases hs
  · split at hs
    · cases hs; simp_all
    · simp only [handlerTable, lookupHandler] at hs
      repeat' split at hs
      all_goals first | (cases hs; simp_all) | cases hs

end Sys2Proof
end

