-- ==== Sys2Proof/Laws/Memory.lean ====
section
/-! SUPPORT. Memory: a read after a write, and every operation keeps the canonical form. -/

namespace Sys2Proof.Machine

theorem Memory.read_erase (m : Memory) (a b : Nat) :
    Memory.read (Memory.erase m a) b = if a = b then Memory.unlisted else Memory.read m b := by
  induction m with
  | nil => simp [Memory.erase, Memory.read]
  | cons c m ih =>
    obtain ⟨k, w⟩ := c
    by_cases hk : k = a
    · subst hk
      rw [Memory.erase, if_pos rfl, ih, Memory.read]
      by_cases hb : k = b <;> simp [hb]
    · rw [Memory.erase, if_neg hk, Memory.read, ih, Memory.read]
      by_cases hb : k = b
      · subst hb; simp [Ne.symm hk]
      · simp [hb]

theorem Memory.read_insert (m : Memory) (a b : Nat) (v : Byte) :
    Memory.read (Memory.insert m a v) b = if a = b then v else Memory.read m b := by
  induction m with
  | nil => simp [Memory.insert, Memory.read]
  | cons c m ih =>
    obtain ⟨k, w⟩ := c
    simp only [Memory.insert]
    split
    · simp [Memory.read]
    · split
      · next h => subst h; by_cases hb : k = b <;> simp [Memory.read, hb]
      · next h =>
        simp only [Memory.read, ih]
        by_cases hb : k = b
        · subst hb; simp [Ne.symm h]
        · simp [hb]

/-- A read gives the byte last written there, and a write leaves every other cell alone (20_memory.md R46, R47, R55). -/
theorem Memory.read_write (m : Memory) (a b : Nat) (v : Byte) :
    Memory.read (Memory.write m a v) b = if a = b then v else Memory.read m b := by
  unfold Memory.write
  split
  · next h => rw [Memory.read_erase, h]
  · exact Memory.read_insert m a b v

@[simp] theorem Memory.read_write_same (m : Memory) (a : Nat) (v : Byte) :
    Memory.read (Memory.write m a v) a = v := by
  simp [Memory.read_write]

theorem Memory.read_write_other (m : Memory) {a b : Nat} (v : Byte) (h : a ≠ b) :
    Memory.read (Memory.write m a v) b = Memory.read m b := by
  simp [Memory.read_write, h]

theorem Memory.wfFrom_mono {lo lo' : Nat} (h : lo' ≤ lo) {m : Memory} (hm : Memory.wfFrom lo m = true) :
    Memory.wfFrom lo' m = true := by
  cases m with
  | nil => rfl
  | cons c m =>
    obtain ⟨k, w⟩ := c
    simp only [Memory.wfFrom, Bool.and_eq_true, decide_eq_true_eq] at hm ⊢
    obtain ⟨⟨⟨h1, h2⟩, h3⟩, h4⟩ := hm
    exact ⟨⟨⟨h.trans h1, h2⟩, h3⟩, h4⟩

theorem Memory.wfFrom_erase {lo : Nat} {m : Memory} (hm : Memory.wfFrom lo m = true) (a : Nat) :
    Memory.wfFrom lo (Memory.erase m a) = true := by
  induction m generalizing lo with
  | nil => rfl
  | cons c m ih =>
    obtain ⟨k, w⟩ := c
    simp only [Memory.wfFrom, Bool.and_eq_true, decide_eq_true_eq] at hm
    obtain ⟨⟨⟨h1, h2⟩, h3⟩, h4⟩ := hm
    rw [Memory.erase]
    split
    · exact Memory.wfFrom_mono (Nat.le_succ_of_le h1) (ih h4)
    · simpa [Memory.wfFrom, h1, h2, h3] using ih h4

theorem Memory.wfFrom_insert {lo : Nat} {m : Memory} (hm : Memory.wfFrom lo m = true) {a : Nat} {v : Byte}
    (hlo : lo ≤ a) (ha : a < Config.memSize) (hv : v ≠ Memory.unlisted) :
    Memory.wfFrom lo (Memory.insert m a v) = true := by
  induction m generalizing lo with
  | nil => simp [Memory.insert, Memory.wfFrom, hlo, ha, hv]
  | cons c m ih =>
    obtain ⟨k, w⟩ := c
    simp only [Memory.wfFrom, Bool.and_eq_true, decide_eq_true_eq] at hm
    obtain ⟨⟨⟨h1, h2⟩, h3⟩, h4⟩ := hm
    simp only [Memory.insert]
    split
    · next h => simpa [Memory.wfFrom, hlo, ha, hv, h2, h3, h4] using h
    · split
      · next h => subst h; simp [Memory.wfFrom, hlo, ha, hv, h4]
      · next h h' => simpa [Memory.wfFrom, h1, h2, h3] using ih h4 (by omega)

/-- A write inside the address space keeps the canonical form. -/
theorem Memory.wf_write {m : Memory} (hm : Memory.wf m = true) {a : Nat} (ha : a < Config.memSize) (v : Byte) :
    Memory.wf (Memory.write m a v) = true := by
  unfold Memory.write
  split
  · exact Memory.wfFrom_erase hm a
  · next hv => exact Memory.wfFrom_insert hm (Nat.zero_le a) ha hv

/-- Consecutive writes inside the address space keep the canonical form. -/
theorem Memory.wf_writeBytes {m : Memory} (hm : Memory.wf m = true) {a : Nat} {bytes : List Byte}
    (ha : a + bytes.length ≤ Config.memSize) : Memory.wf (Memory.writeBytes m a bytes) = true := by
  induction bytes generalizing m a with
  | nil => exact hm
  | cons v rest ih =>
    simp only [List.length_cons] at ha
    exact ih (Memory.wf_write hm (by omega) v) (by omega)

/-- Every 8-bit address lies inside the address space. -/
theorem Memory.addr_lt (addr : Byte) : addr.toNat < Config.memSize := addr.isLt

/-- The state's one memory write keeps the canonical form. -/
theorem State.memWrite_wf {s : State} (h : Memory.wf s.mem = true) (addr v : Byte) :
    Memory.wf (s.memWrite addr v).mem = true :=
  Memory.wf_write h (Memory.addr_lt addr) v

/-- Memory is in canonical form at reset: nothing is listed. -/
theorem State.reset_mem_wf : Memory.wf State.reset.mem = true := rfl

/-- What consecutive writes leave at an address: the byte written there, or what was there. -/
theorem Memory.read_writeBytes (m : Memory) (a b : Nat) (bytes : List Byte) :
    Memory.read (Memory.writeBytes m a bytes) b =
      if a ≤ b ∧ b < a + bytes.length then bytes.getD (b - a) 0 else Memory.read m b := by
  induction bytes generalizing m a with
  | nil => simp [Memory.writeBytes]
  | cons v rest ih =>
    rw [Memory.writeBytes, ih, Memory.read_write]
    simp only [List.length_cons]
    by_cases hab : a = b
    · subst hab; simp
    · by_cases h : a + 1 ≤ b ∧ b < a + 1 + rest.length
      · have : b - a = (b - (a + 1)) + 1 := by omega
        rw [if_pos h, if_pos (by omega), this]; simp
      · rw [if_neg h, if_neg hab, if_neg (by omega)]

end Sys2Proof.Machine
end

