-- ==== Sys2Proof/Laws/State.lean ====
section
/-! SUPPORT. One lemma per field of State per update, true by unfolding once. -/

namespace Sys2Proof.Machine

/-! ### memWrite -/

@[simp] theorem State.memWrite_regs (s : State) (addr v : Byte) : (s.memWrite addr v).regs = s.regs := rfl
@[simp] theorem State.memWrite_pc (s : State) (addr v : Byte) : (s.memWrite addr v).pc = s.pc := rfl
@[simp] theorem State.memWrite_mem (s : State) (addr v : Byte) : (s.memWrite addr v).mem = Memory.write s.mem addr.toNat v := rfl
@[simp] theorem State.memWrite_status (s : State) (addr v : Byte) : (s.memWrite addr v).status = s.status := rfl
@[simp] theorem State.memWrite_fault (s : State) (addr v : Byte) : (s.memWrite addr v).fault = s.fault := rfl
@[simp] theorem State.memWrite_out (s : State) (addr v : Byte) : (s.memWrite addr v).out = s.out := rfl
@[simp] theorem State.memWrite_diag (s : State) (addr v : Byte) : (s.memWrite addr v).diag = s.diag := rfl
@[simp] theorem State.memWrite_params (s : State) (addr v : Byte) : (s.memWrite addr v).params = s.params := rfl

/-! ### writeReg -/

@[simp] theorem State.writeReg_regs (s : State) (i : RegIdx) (v : Byte) : (s.writeReg i v).regs = s.regs.set i v := rfl
@[simp] theorem State.writeReg_pc (s : State) (i : RegIdx) (v : Byte) : (s.writeReg i v).pc = s.pc := rfl
@[simp] theorem State.writeReg_mem (s : State) (i : RegIdx) (v : Byte) : (s.writeReg i v).mem = s.mem := rfl
@[simp] theorem State.writeReg_status (s : State) (i : RegIdx) (v : Byte) : (s.writeReg i v).status = s.status := rfl
@[simp] theorem State.writeReg_fault (s : State) (i : RegIdx) (v : Byte) : (s.writeReg i v).fault = s.fault := rfl
@[simp] theorem State.writeReg_out (s : State) (i : RegIdx) (v : Byte) : (s.writeReg i v).out = s.out := rfl
@[simp] theorem State.writeReg_diag (s : State) (i : RegIdx) (v : Byte) : (s.writeReg i v).diag = s.diag := rfl
@[simp] theorem State.writeReg_params (s : State) (i : RegIdx) (v : Byte) : (s.writeReg i v).params = s.params := rfl

/-! ### setPc -/

@[simp] theorem State.setPc_regs (s : State) (target : Byte) : (s.setPc target).regs = s.regs := rfl
@[simp] theorem State.setPc_pc (s : State) (target : Byte) : (s.setPc target).pc = target := rfl
@[simp] theorem State.setPc_mem (s : State) (target : Byte) : (s.setPc target).mem = s.mem := rfl
@[simp] theorem State.setPc_status (s : State) (target : Byte) : (s.setPc target).status = s.status := rfl
@[simp] theorem State.setPc_fault (s : State) (target : Byte) : (s.setPc target).fault = s.fault := rfl
@[simp] theorem State.setPc_out (s : State) (target : Byte) : (s.setPc target).out = s.out := rfl
@[simp] theorem State.setPc_diag (s : State) (target : Byte) : (s.setPc target).diag = s.diag := rfl
@[simp] theorem State.setPc_params (s : State) (target : Byte) : (s.setPc target).params = s.params := rfl

/-! ### emit -/

@[simp] theorem State.emit_regs (s : State) (v : Byte) : (s.emit v).regs = s.regs := rfl
@[simp] theorem State.emit_pc (s : State) (v : Byte) : (s.emit v).pc = s.pc := rfl
@[simp] theorem State.emit_mem (s : State) (v : Byte) : (s.emit v).mem = s.mem := rfl
@[simp] theorem State.emit_status (s : State) (v : Byte) : (s.emit v).status = s.status := rfl
@[simp] theorem State.emit_fault (s : State) (v : Byte) : (s.emit v).fault = s.fault := rfl
@[simp] theorem State.emit_out (s : State) (v : Byte) : (s.emit v).out = s.out ++ [v] := rfl
@[simp] theorem State.emit_diag (s : State) (v : Byte) : (s.emit v).diag = s.diag := rfl
@[simp] theorem State.emit_params (s : State) (v : Byte) : (s.emit v).params = s.params := rfl

/-! ### report -/

@[simp] theorem State.report_regs (s : State) (e : DivByZeroEvent) : (s.report e).regs = s.regs := rfl
@[simp] theorem State.report_pc (s : State) (e : DivByZeroEvent) : (s.report e).pc = s.pc := rfl
@[simp] theorem State.report_mem (s : State) (e : DivByZeroEvent) : (s.report e).mem = s.mem := rfl
@[simp] theorem State.report_status (s : State) (e : DivByZeroEvent) : (s.report e).status = s.status := rfl
@[simp] theorem State.report_fault (s : State) (e : DivByZeroEvent) : (s.report e).fault = s.fault := rfl
@[simp] theorem State.report_out (s : State) (e : DivByZeroEvent) : (s.report e).out = s.out := rfl
@[simp] theorem State.report_diag (s : State) (e : DivByZeroEvent) : (s.report e).diag = s.diag ++ [e] := rfl
@[simp] theorem State.report_params (s : State) (e : DivByZeroEvent) : (s.report e).params = s.params := rfl

/-! ### halt -/

@[simp] theorem State.halt_regs (s : State) : s.halt.regs = s.regs := rfl
@[simp] theorem State.halt_pc (s : State) : s.halt.pc = s.pc := rfl
@[simp] theorem State.halt_mem (s : State) : s.halt.mem = s.mem := rfl
@[simp] theorem State.halt_status (s : State) : s.halt.status = .halted := rfl
@[simp] theorem State.halt_fault (s : State) : s.halt.fault = s.fault := rfl
@[simp] theorem State.halt_out (s : State) : s.halt.out = s.out := rfl
@[simp] theorem State.halt_diag (s : State) : s.halt.diag = s.diag := rfl
@[simp] theorem State.halt_params (s : State) : s.halt.params = s.params := rfl

/-! ### raise -/

@[simp] theorem State.raise_regs (s : State) (cause : FaultCause) (info : Nat) : (s.raise cause info).regs = s.regs := rfl
@[simp] theorem State.raise_pc (s : State) (cause : FaultCause) (info : Nat) : (s.raise cause info).pc = s.pc := rfl
@[simp] theorem State.raise_mem (s : State) (cause : FaultCause) (info : Nat) : (s.raise cause info).mem = s.mem := rfl
@[simp] theorem State.raise_status (s : State) (cause : FaultCause) (info : Nat) : (s.raise cause info).status = .faulted := rfl
@[simp] theorem State.raise_fault (s : State) (cause : FaultCause) (info : Nat) : (s.raise cause info).fault = some { cause := cause, pc := s.pc, opcode := s.memRead s.pc, info := info } := rfl
@[simp] theorem State.raise_out (s : State) (cause : FaultCause) (info : Nat) : (s.raise cause info).out = s.out := rfl
@[simp] theorem State.raise_diag (s : State) (cause : FaultCause) (info : Nat) : (s.raise cause info).diag = s.diag := rfl
@[simp] theorem State.raise_params (s : State) (cause : FaultCause) (info : Nat) : (s.raise cause info).params = s.params := rfl

/-! ### decSp -/

@[simp] theorem State.decSp_regs (s : State) : s.decSp.regs = s.regs.set spIdx (s.sp - 1) := rfl
@[simp] theorem State.decSp_pc (s : State) : s.decSp.pc = s.pc := rfl
@[simp] theorem State.decSp_mem (s : State) : s.decSp.mem = s.mem := rfl
@[simp] theorem State.decSp_status (s : State) : s.decSp.status = s.status := rfl
@[simp] theorem State.decSp_fault (s : State) : s.decSp.fault = s.fault := rfl
@[simp] theorem State.decSp_out (s : State) : s.decSp.out = s.out := rfl
@[simp] theorem State.decSp_diag (s : State) : s.decSp.diag = s.diag := rfl
@[simp] theorem State.decSp_params (s : State) : s.decSp.params = s.params := rfl

/-! ### incSp -/

@[simp] theorem State.incSp_regs (s : State) : s.incSp.regs = s.regs.set spIdx (s.sp + 1) := rfl
@[simp] theorem State.incSp_pc (s : State) : s.incSp.pc = s.pc := rfl
@[simp] theorem State.incSp_mem (s : State) : s.incSp.mem = s.mem := rfl
@[simp] theorem State.incSp_status (s : State) : s.incSp.status = s.status := rfl
@[simp] theorem State.incSp_fault (s : State) : s.incSp.fault = s.fault := rfl
@[simp] theorem State.incSp_out (s : State) : s.incSp.out = s.out := rfl
@[simp] theorem State.incSp_diag (s : State) : s.incSp.diag = s.diag := rfl
@[simp] theorem State.incSp_params (s : State) : s.incSp.params = s.params := rfl

/-! ### pushByte -/

@[simp] theorem State.pushByte_regs (s : State) (v : Byte) : (s.pushByte v).regs = s.regs.set spIdx (s.sp - 1) := rfl
@[simp] theorem State.pushByte_pc (s : State) (v : Byte) : (s.pushByte v).pc = s.pc := rfl
@[simp] theorem State.pushByte_mem (s : State) (v : Byte) : (s.pushByte v).mem = Memory.write s.mem s.decSp.sp.toNat v := rfl
@[simp] theorem State.pushByte_status (s : State) (v : Byte) : (s.pushByte v).status = s.status := rfl
@[simp] theorem State.pushByte_fault (s : State) (v : Byte) : (s.pushByte v).fault = s.fault := rfl
@[simp] theorem State.pushByte_out (s : State) (v : Byte) : (s.pushByte v).out = s.out := rfl
@[simp] theorem State.pushByte_diag (s : State) (v : Byte) : (s.pushByte v).diag = s.diag := rfl
@[simp] theorem State.pushByte_params (s : State) (v : Byte) : (s.pushByte v).params = s.params := rfl

end Sys2Proof.Machine
end

