-- ==== Sys2Proof/Laws/Ops.lean ====
section
/-! SUPPORT. What each shared operation can do, said once: register and memory reads after an update, and the cases of each check. -/

namespace Sys2Proof.Machine

/-! ### Reads after updates -/

theorem State.readReg_writeReg (s : State) (i r : RegIdx) (v : Byte) :
    (s.writeReg i v).readReg r = if i = r then v else s.readReg r := by
  simp [State.readReg, State.writeReg, Vector.getElem_set, Fin.ext_iff]

@[simp] theorem State.readReg_writeReg_same (s : State) (i : RegIdx) (v : Byte) : (s.writeReg i v).readReg i = v := by
  simp [State.readReg_writeReg]

theorem State.readReg_writeReg_other (s : State) {i r : RegIdx} (v : Byte) (h : i ≠ r) :
    (s.writeReg i v).readReg r = s.readReg r := by
  simp [State.readReg_writeReg, h]

@[simp] theorem State.readReg_memWrite (s : State) (addr v : Byte) (r : RegIdx) :
    (s.memWrite addr v).readReg r = s.readReg r := rfl
@[simp] theorem State.readReg_setPc (s : State) (target : Byte) (r : RegIdx) :
    (s.setPc target).readReg r = s.readReg r := rfl
@[simp] theorem State.readReg_emit (s : State) (v : Byte) (r : RegIdx) : (s.emit v).readReg r = s.readReg r := rfl
@[simp] theorem State.readReg_report (s : State) (e : DivByZeroEvent) (r : RegIdx) :
    (s.report e).readReg r = s.readReg r := rfl
@[simp] theorem State.readReg_halt (s : State) (r : RegIdx) : s.halt.readReg r = s.readReg r := rfl
@[simp] theorem State.readReg_raise (s : State) (cause : FaultCause) (info : Nat) (r : RegIdx) :
    (s.raise cause info).readReg r = s.readReg r := rfl

theorem State.readReg_decSp (s : State) (r : RegIdx) :
    s.decSp.readReg r = if spIdx = r then s.sp - 1 else s.readReg r :=
  s.readReg_writeReg spIdx r _

theorem State.readReg_incSp (s : State) (r : RegIdx) :
    s.incSp.readReg r = if spIdx = r then s.sp + 1 else s.readReg r :=
  s.readReg_writeReg spIdx r _

@[simp] theorem State.sp_decSp (s : State) : s.decSp.sp = s.sp - 1 := by simp [State.sp, State.decSp]
@[simp] theorem State.sp_incSp (s : State) : s.incSp.sp = s.sp + 1 := by simp [State.sp, State.incSp]

theorem State.readReg_pushByte (s : State) (v : Byte) (r : RegIdx) :
    (s.pushByte v).readReg r = if spIdx = r then s.sp - 1 else s.readReg r :=
  s.readReg_decSp r

theorem State.memRead_memWrite (s : State) (addr a v : Byte) :
    (s.memWrite addr v).memRead a = if addr = a then v else s.memRead a := by
  simp only [State.memRead, State.memWrite_mem, Memory.read_write, BitVec.toNat_inj]

@[simp] theorem State.memRead_writeReg (s : State) (i : RegIdx) (v a : Byte) :
    (s.writeReg i v).memRead a = s.memRead a := rfl
@[simp] theorem State.memRead_setPc (s : State) (target a : Byte) : (s.setPc target).memRead a = s.memRead a := rfl
@[simp] theorem State.memRead_emit (s : State) (v a : Byte) : (s.emit v).memRead a = s.memRead a := rfl
@[simp] theorem State.memRead_report (s : State) (e : DivByZeroEvent) (a : Byte) :
    (s.report e).memRead a = s.memRead a := rfl
@[simp] theorem State.memRead_halt (s : State) (a : Byte) : s.halt.memRead a = s.memRead a := rfl
@[simp] theorem State.memRead_raise (s : State) (cause : FaultCause) (info : Nat) (a : Byte) :
    (s.raise cause info).memRead a = s.memRead a := rfl
@[simp] theorem State.memRead_decSp (s : State) (a : Byte) : s.decSp.memRead a = s.memRead a := rfl
@[simp] theorem State.memRead_incSp (s : State) (a : Byte) : s.incSp.memRead a = s.memRead a := rfl

/-- The pushed byte lies at the decremented pointer, and every other cell is unchanged. -/
theorem State.memRead_pushByte (s : State) (v a : Byte) :
    (s.pushByte v).memRead a = if s.sp - 1 = a then v else s.memRead a := by
  rw [State.pushByte, State.memRead_memWrite, State.sp_decSp, State.memRead_decSp]

/-! ### The cases of each check -/

theorem regIndex_of_lt {b : Byte} (h : b.toNat < 8) : regIndex b = some ⟨b.toNat, h⟩ := by simp [regIndex, h]

theorem regIndex_of_ge {b : Byte} (h : 8 ≤ b.toNat) : regIndex b = none := by simp [regIndex, h]

@[simp] theorem regIndex_ofNat (r : RegIdx) : regIndex (BitVec.ofNat 8 r.val) = some r := by
  have h : (BitVec.ofNat 8 r.val).toNat = r.val := by simp; omega
  simp [regIndex, h]

theorem State.withReg_some (s : State) {b : Byte} {r : RegIdx} (h : regIndex b = some r) (k : RegIdx → State) :
    s.withReg b k = k r := by simp [State.withReg, h]

theorem State.withReg_of_ge (s : State) {b : Byte} (h : 8 ≤ b.toNat) (k : RegIdx → State) :
    s.withReg b k = s.raise .registerIndexError b.toNat := by simp [State.withReg, regIndex_of_ge h]

/-- A register-index check either raises or goes on with the register the byte selects. -/
theorem State.withReg_cases (s : State) (b : Byte) (k : RegIdx → State) :
    (8 ≤ b.toNat ∧ s.withReg b k = s.raise .registerIndexError b.toNat) ∨
      ∃ h : b.toNat < 8, s.withReg b k = k ⟨b.toNat, h⟩ := by
  by_cases h : b.toNat < 8
  · exact .inr ⟨h, s.withReg_some (regIndex_of_lt h) k⟩
  · exact .inl ⟨by omega, s.withReg_of_ge (by omega) k⟩

/-- The advance check either raises or goes on with the next pc. -/
theorem State.withNextPc_cases (s : State) (n : Nat) (k : Byte → State) :
    (255 < s.pc.toNat + n + 1 ∧ s.withNextPc n k = s.raise .addressError (s.pc.toNat + n + 1)) ∨
      (s.pc.toNat + n + 1 ≤ 255 ∧ s.withNextPc n k = k (BitVec.ofNat 8 (s.pc.toNat + n + 1))) := by
  by_cases h : s.pc.toNat + n + 1 > 255
  · exact .inl ⟨h, if_pos h⟩
  · exact .inr ⟨by omega, if_neg h⟩

/-- PUSH's bound either raises or goes on. -/
theorem State.withStackRoom_cases (s t : State) :
    (s.sp.toNat ≤ s.params.stackMin.val ∧ s.withStackRoom t = s.raise .stackOverflow s.sp.toNat) ∨
      (s.params.stackMin.val < s.sp.toNat ∧ s.withStackRoom t = t) := by
  by_cases h : s.sp.toNat ≤ s.params.stackMin.val
  · exact .inl ⟨h, if_pos h⟩
  · exact .inr ⟨by omega, if_neg h⟩

/-- CALL's bound either raises, only where the parameter asks for it, or goes on. -/
theorem State.withCallRoom_cases (s t : State) :
    (s.params.callChecksOverflow = true ∧ s.sp.toNat ≤ s.params.stackMin.val ∧
        s.withCallRoom t = s.raise .stackOverflow s.sp.toNat) ∨
      (¬ (s.params.callChecksOverflow = true ∧ s.sp.toNat ≤ s.params.stackMin.val) ∧ s.withCallRoom t = t) := by
  by_cases hc : s.params.callChecksOverflow = true
  · obtain ⟨h, e⟩ | ⟨h, e⟩ := s.withStackRoom_cases t
    · exact .inl ⟨hc, h, by simp [State.withCallRoom, hc, e]⟩
    · exact .inr ⟨by omega, by simp [State.withCallRoom, hc, e]⟩
  · exact .inr ⟨fun h => hc h.1, by simp [State.withCallRoom, hc]⟩

/-- POP's test either raises or goes on. -/
theorem State.withStackItem_cases (s t : State) :
    (s.sp = Config.spReset ∧ s.withStackItem t = s.raise .stackUnderflow s.sp.toNat) ∨
      (s.sp ≠ Config.spReset ∧ s.withStackItem t = t) := by
  by_cases h : s.sp = Config.spReset
  · exact .inl ⟨h, if_pos h⟩
  · exact .inr ⟨h, if_neg h⟩

/-- The ALU shape raises one of its two causes, or makes its effect and advances by three. -/
theorem State.aluStep_cases (s : State) {opcode : Byte} (hn : opN opcode = 2) (a b : Byte) (effect : RegIdx → RegIdx → State) :
    (8 ≤ a.toNat ∧ s.aluStep opcode a b effect = s.raise .registerIndexError a.toNat) ∨
      (a.toNat < 8 ∧ 8 ≤ b.toNat ∧ s.aluStep opcode a b effect = s.raise .registerIndexError b.toNat) ∨
      (255 < s.pc.toNat + 3 ∧ s.aluStep opcode a b effect = s.raise .addressError (s.pc.toNat + 3)) ∨
      ∃ (ha : a.toNat < 8) (hb : b.toNat < 8), s.pc.toNat + 3 ≤ 255 ∧
        s.aluStep opcode a b effect =
          (effect ⟨a.toNat, ha⟩ ⟨b.toNat, hb⟩).setPc (BitVec.ofNat 8 (s.pc.toNat + 3)) := by
  unfold State.aluStep
  rw [hn]
  obtain ⟨h, e⟩ | ⟨ha, e⟩ := s.withReg_cases a _
  · exact .inl ⟨h, e⟩
  · rw [e]
    obtain ⟨h, e⟩ | ⟨hb, e⟩ := s.withReg_cases b _
    · exact .inr (.inl ⟨ha, h, e⟩)
    · rw [e]
      obtain ⟨h, e⟩ | ⟨h, e⟩ := s.withNextPc_cases 2 _
      · exact .inr (.inr (.inl ⟨h, e⟩))
      · exact .inr (.inr (.inr ⟨ha, hb, h, e⟩))

/-- A fetch raises AddressError, raises DecodeError, or gives the instruction of the window. -/
theorem State.fetchInstr_cases (s : State) :
    (255 < s.pc.toNat + 2 ∧ s.fetchInstr = .raises .addressError (s.pc.toNat + 2)) ∨
      (s.pc.toNat + 2 ≤ 255 ∧ selectHandler (s.memRead s.pc) = none ∧ s.fetchInstr = .raises .decodeError 0) ∨
      ∃ h, s.pc.toNat + 2 ≤ 255 ∧ selectHandler (s.memRead s.pc) = some h ∧
        s.fetchInstr = .instr (h (s.memRead (s.pc + 1)) (s.memRead (s.pc + 2))) := by
  by_cases hw : s.pc.toNat + 2 ≤ 255
  · cases hs : selectHandler (s.memRead s.pc) with
    | none =>
      exact .inr (.inl ⟨hw, rfl, by
        simp [State.fetchInstr, State.windowFits, hw, Window.identify, decodeWindow, State.fetchWindow, hs]⟩)
    | some h =>
      exact .inr (.inr ⟨h, hw, rfl, by
        simp [State.fetchInstr, State.windowFits, hw, Window.identify, decodeWindow, State.fetchWindow, hs]⟩)
  · exact .inl ⟨by omega, by simp [State.fetchInstr, State.windowFits, hw]⟩

/-! ### The step -/

theorem step_of_running {s : State} (h : s.status = .running) :
    step s = match s.fetchInstr with
      | .instr i => exec i s
      | .raises cause info => .next (s.raise cause info) := by
  cases hf : s.fetchInstr <;> simp only [step, h, hf]

/-- A core that is not RUNNING keeps its state. -/
theorem step_of_not_running {s : State} (h : s.status ≠ .running) : step s = .next s := by
  cases hs : s.status <;> simp_all [step, State.rest]

end Sys2Proof.Machine
end

