-- ==== Sys2Proof/Laws/PerInstr.lean ====
section
/-! SUPPORT. Per-instruction facts about the encoding: one lemma per constructor. -/

namespace Sys2Proof.Laws.EncodedForm

/-- An instruction's opcode byte is in the dispatch table, its encoding has n + 1 bytes (30_encoding.md R65, R81), and n is 0, 1 or 2
(30_encoding.md R70). -/
def Statement (i : Instr) : Prop :=
  i.opcode ∈ dispatchTable.map Prod.fst ∧ (encode i).length = opN i.opcode + 1 ∧ opN i.opcode ≤ 2

/-- The two facts that depend on the opcode byte alone. -/
theorem of_opcode {i : Instr} {op : Byte} {n : Nat} (hi : i.opcode = op) (hl : i.operands.length = n)
    (h : op ∈ dispatchTable.map Prod.fst ∧ opN op = n ∧ n ≤ 2) : Statement i := by
  obtain ⟨hm, hn, h2⟩ := h
  subst hi
  exact ⟨hm, by rw [hn, encode, List.length_cons, hl], hn ▸ h2⟩

theorem halt : Statement .halt := of_opcode (op := Opcode.halt) (n := 0) rfl rfl (by decide)
theorem ret : Statement .ret := of_opcode (op := Opcode.ret) (n := 0) rfl rfl (by decide)
theorem push (a : Byte) : Statement (.push a) := of_opcode (op := Opcode.push) (n := 1) rfl rfl (by decide)
theorem pop (a : Byte) : Statement (.pop a) := of_opcode (op := Opcode.pop) (n := 1) rfl rfl (by decide)
theorem prn (a : Byte) : Statement (.prn a) := of_opcode (op := Opcode.prn) (n := 1) rfl rfl (by decide)
theorem call (a : Byte) : Statement (.call a) := of_opcode (op := Opcode.call) (n := 1) rfl rfl (by decide)
theorem ldi (a imm : Byte) : Statement (.ldi a imm) := of_opcode (op := Opcode.ldi) (n := 2) rfl rfl (by decide)
theorem add (a b : Byte) : Statement (.add a b) := of_opcode (op := Opcode.add) (n := 2) rfl rfl (by decide)
theorem sub (a b : Byte) : Statement (.sub a b) := of_opcode (op := Opcode.sub) (n := 2) rfl rfl (by decide)
theorem mul (a b : Byte) : Statement (.mul a b) := of_opcode (op := Opcode.mul) (n := 2) rfl rfl (by decide)
theorem div (a b : Byte) : Statement (.div a b) := of_opcode (op := Opcode.div) (n := 2) rfl rfl (by decide)
theorem mod (a b : Byte) : Statement (.mod a b) := of_opcode (op := Opcode.mod) (n := 2) rfl rfl (by decide)

end Sys2Proof.Laws.EncodedForm
end

