-- ==== Sys2Proof/Laws/Safety.lean ====
section
/-! SUPPORT. The statements' terms against the model's operations. -/

namespace Sys2Proof.Machine

/-- Entry into FAULTED, written out in the statements, is the model's one operation. -/
theorem State.faultedBy_eq_raise (s : State) (cause : FaultCause) (info : Nat) : s.faultedBy cause info = s.raise cause info := rfl

/-- The operand byte of a register selects it. -/
@[simp] theorem regIndex_regByte (r : RegIdx) : regIndex (regByte r) = some r := regIndex_ofNat r

theorem regByte_toNat (r : RegIdx) : (regByte r).toNat = r.val := by
  simp only [regByte, BitVec.toNat_ofNat]
  omega

/-- A byte below 8 is the operand byte of the register it selects. -/
theorem regByte_eq_iff {a : Byte} (h : a.toNat < 8) (r : RegIdx) : regByte r = a ↔ (⟨a.toNat, h⟩ : RegIdx) = r := by
  constructor
  · rintro rfl
    exact Fin.ext (regByte_toNat r)
  · rintro rfl
    exact BitVec.eq_of_toNat_eq (regByte_toNat _)

end Sys2Proof.Machine
end

