-- ==== Sys2Proof/Tests/Slice0.lean ====
section
/-! SUPPORT. Tests: expected results come from the spec's encodings (30_encoding.md R72) and its vectors (95_test_vectors.md), never from
the model; and, for each statement with hypotheses, witnesses that meet them. -/

namespace Sys2Proof.Tests

open Sys2Proof Sys2Proof.Machine

/-! ### Helpers -/

/-- A RUNNING core at `pc` with the given R0, R1 and R7, and nothing in memory. -/
def at3 (pc r0 r1 r7 : Byte) : State :=
  { State.reset with status := .running, pc := pc, regs := #v[r0, r1, 0, 0, 0, 0, 0, r7] }

/-- The same state with bytes placed from an address up. -/
def withBytes (s : State) (addr : Nat) (bytes : List Byte) : State := { s with mem := Memory.writeBytes s.mem addr bytes }

/-- One step of a state with an instruction's bytes placed at its pc. -/
def stepOn (s : State) (bytes : List Byte) : Option State := nextState? (step (withBytes s s.pc.toNat bytes))

/-- The observations the tests compare: one register, the pc, the run state. -/
def see (r : RegIdx) (o : Option State) : Option (Byte × Byte × RunStatus) := o.map fun t => (t.readReg r, t.pc, t.status)

/-- The fault record after a step. -/
def faultOf (o : Option State) : Option FaultRecord := o.bind (·.fault)

/-- The parameters of vectors V-S5 and V-C4. -/
def checked (stackMin : Fin 0xF4) (s : State) : State := { s with params := { stackMin := stackMin, callChecksOverflow := true } }

/-! ### WellFormed refuses an ill-formed term (30_encoding.md R74) -/

theorem test_wellFormed_refuses_operand_a : (Instr.push 8).wellFormed = false ∧ (Instr.add 255 0).wellFormed = false := by decide
theorem test_wellFormed_refuses_operand_b : (Instr.mod 0 8).wellFormed = false := by decide
theorem test_wellFormed_accepts_any_immediate : (Instr.ldi 7 255).wellFormed = true := by decide

/-! ### Decoding words written out bit by bit (30_encoding.md R66, R72) -/

theorem test_decode_halt : decode [0b00000001#8] = .ok (.halt, []) := rfl
theorem test_decode_ret : decode [0b00010001#8] = .ok (.ret, []) := rfl
theorem test_decode_push : decode [0b01000101#8, 0b00000111#8] = .ok (.push 7, []) := rfl
theorem test_decode_pop : decode [0b01000110#8, 0b00000110#8] = .ok (.pop 6, []) := rfl
theorem test_decode_prn : decode [0b01000111#8, 0b00000101#8] = .ok (.prn 5, []) := rfl
theorem test_decode_call : decode [0b01010000#8, 0b00000100#8] = .ok (.call 4, []) := rfl
theorem test_decode_ldi : decode [0b10000010#8, 0b00000011#8, 0b11111111#8] = .ok (.ldi 3 255, []) := rfl
theorem test_decode_add : decode [0b10100000#8, 0b00000010#8, 0b00000001#8] = .ok (.add 2 1, []) := rfl
theorem test_decode_sub : decode [0b10100001#8, 0b00000001#8, 0b00000010#8] = .ok (.sub 1 2, []) := rfl
theorem test_decode_mul : decode [0b10100010#8, 0b00000000#8, 0b00000111#8] = .ok (.mul 0 7, []) := rfl
theorem test_decode_div : decode [0b10100011#8, 0b00000111#8, 0b00000000#8] = .ok (.div 7 0, []) := rfl
theorem test_decode_mod : decode [0b10100100#8, 0b00000110#8, 0b00000101#8] = .ok (.mod 6 5, []) := rfl

/-- Vectors V-D1, V-D3, V-D5 and V-D6: illegal bytes, the ALU class among them. -/
theorem test_decode_rejects :
    decode [0x00, 0, 0] = .error (.illegalOpcode 0x00) ∧ decode [0xFF, 0, 0] = .error (.illegalOpcode 0xFF) ∧
    decode [0xA5, 0, 0] = .error (.illegalOpcode 0xA5) ∧ decode [0x20, 0, 0] = .error (.illegalOpcode 0x20) := ⟨rfl, rfl, rfl, rfl⟩

theorem test_decode_truncated : decode [0xA0, 0] = .error .truncated ∧ decode [] = .error .truncated := ⟨rfl, rfl⟩

/-- The opcode table numbers byte 0 as bits 7..0 (E2: A2 00 01 is MUL R0, R1); bits above the row's length are 0. -/
theorem test_table_word : decodeTableWord 24 0x0100A2 = some (.mul 0 1) ∧ decodeTableWord 8 0xFF01 = some .halt := by decide

/-- E1's first instruction, run as the first after reset. -/
theorem test_fetch_word : see 0 (nextState? (step (State.reset.withFetchWord 24 0x080082))) = some (8, 3, .running) := by decide

theorem test_encode : encode (.ldi 0 8) = [0x82, 0x00, 0x08] ∧ encode (.prn 0) = [0x47, 0x00] ∧ encode .halt = [0x01] := by decide

/-- 42_ldi_prn_halt.md R121: an immediate above 255 is refused, not reduced; a register above R7 does not exist. -/
theorem test_assemble :
    assembleImmediate 256 = none ∧ assembleImmediate 255 = some 255 ∧ assembleRegister 8 = none ∧ assemble (.ldi 8 0) = none := by
  decide

/-- 95_test_vectors.md E1: the bytes of "LDI R0,8; PRN R0; HALT". -/
theorem test_assembleText : assembleText "LDI R0,8; PRN R0; HALT".toList = some [0x82, 0x00, 0x08, 0x47, 0x00, 0x01] := by decide

/-- 30_encoding.md R80: a label stands for its address, an immediate may be hex or binary, and one above 255 or a register above R7
is outside the form. -/
theorem test_assembleText_forms :
    assembleText "LDI R1, twice; CALL R1\nHALT\ntwice: ADD R0, R0; RET".toList
      = some [0x82, 0x01, 0x06, 0x50, 0x01, 0x01, 0xA0, 0x00, 0x00, 0x11] ∧
    assembleText "LDI R0, 0x08".toList = assembleText "LDI R0, 0b00001000".toList ∧
    assembleText "LDI R0, 256".toList = none ∧ assembleText "PUSH R8".toList = none := by
  decide

/-! ### Fetch and decode (95_test_vectors.md 2.1) -/

/-- V-D7: decode comes before the register check. -/
theorem test_vD7 : faultOf (stepOn (at3 0 0 0 0xF4) [0xA5, 9, 9]) = some ⟨.decodeError, 0, 0xA5, 0⟩ := by decide
/-- V-D8: a HALT at FE. -/
theorem test_vD8 : faultOf (stepOn (at3 0xFE 0 0 0xF4) [0x01]) = some ⟨.addressError, 0xFE, 0x01, 256⟩ := by decide
/-- V-D10: a HALT at FD. -/
theorem test_vD10 : see 7 (stepOn (at3 0xFD 0 0 0xF4) [0x01]) = some (0xF4, 0xFD, .halted) := by decide

/-! ### ALU (95_test_vectors.md 2.2) -/

/-- V-A1 -/
theorem test_vA1_add : see 0 (stepOn (at3 0 0xC8 0x64 0xF4) [0xA0, 0, 1]) = some (0x2C, 3, .running) := by decide
/-- V-D11 -/
theorem test_vD11_add : faultOf (stepOn (at3 0xFD 1 1 0xF4) [0xA0, 0, 1]) = some ⟨.addressError, 0xFD, 0xA0, 256⟩ := by decide
/-- V-A5 -/
theorem test_vA5_sub : see 0 (stepOn (at3 0 3 5 0xF4) [0xA1, 0, 1]) = some (0xFE, 3, .running) := by decide
/-- V-A22, for SUB: operand a is checked before b. -/
theorem test_vA22_sub : faultOf (stepOn (at3 0 0 0 0xF4) [0xA1, 9, 8]) = some ⟨.registerIndexError, 0, 0xA1, 9⟩ := by decide
/-- V-A8 -/
theorem test_vA8_mul : see 0 (stepOn (at3 0 0xFF 0xFF 0xF4) [0xA2, 0, 1]) = some (0x01, 3, .running) := by decide
/-- V-A10 -/
theorem test_vA10_mul : see 0 (stepOn (at3 0 0x0F 0x11 0xF4) [0xA2, 0, 1]) = some (0xFF, 3, .running) := by decide
/-- V-A16 -/
theorem test_vA16_div : see 7 (stepOn (at3 0 0 2 0xF4) [0xA3, 7, 1]) = some (0x7A, 3, .running) := by decide
/-- V-A12 -/
theorem test_vA12_div : (stepOn (at3 0 0xC8 0 0xF4) [0xA3, 0, 1]).map (fun t => (t.readReg 0, t.pc, t.diag)) =
    some (0xC8, 3, [⟨0, 0xA3, 0, 1⟩]) := by decide
/-- V-A17 -/
theorem test_vA17_mod : see 0 (stepOn (at3 0 0xC8 7 0xF4) [0xA4, 0, 1]) = some (4, 3, .running) := by decide
/-- V-A18 -/
theorem test_vA18_mod : (stepOn (at3 0 0xC8 0 0xF4) [0xA4, 0, 1]).map (fun t => (t.readReg 0, t.pc, t.diag)) =
    some (0xC8, 3, [⟨0, 0xA4, 0, 1⟩]) := by decide

/-! ### LDI, PRN, HALT (95_test_vectors.md 2.3) -/

/-- V-L2 -/
theorem test_vL2_ldi : see 7 (stepOn (at3 0 0 0 0xF4) [0x82, 7, 0]) = some (0, 3, .running) := by decide
/-- V-L3 -/
theorem test_vL3_ldi : faultOf (stepOn (at3 0 0 0 0xF4) [0x82, 8, 1]) = some ⟨.registerIndexError, 0, 0x82, 8⟩ := by decide
/-- V-P1 -/
theorem test_vP1_prn : (stepOn (at3 0 0 0 0xF4) [0x47, 7]).map (fun t => (t.out, t.pc)) = some ([0xF4], 2) := by decide
/-- V-P2: the unused byte FF is ignored. -/
theorem test_vP2_prn : (stepOn (at3 0 9 0 0xF4) [0x47, 0, 0xFF]).map (fun t => (t.out, t.pc)) = some ([9], 2) := by decide
/-- V-H2 -/
theorem test_vH2_halt : (stepOn (at3 0 0 0 0xF4) [0x01, 0xFF, 0xFF]).map (fun t => (t.status, t.pc, t.out)) =
    some (.halted, 0, []) := by decide

/-! ### Stack (95_test_vectors.md 2.4) -/

/-- V-S2 -/
theorem test_vS2_push : (stepOn (at3 0 0 0 0xF4) [0x45, 7]).map (fun t => (t.sp, t.memRead 0xF3, t.pc)) =
    some (0xF3, 0xF3, 2) := by decide
/-- V-S5 and V-S6: the bound is the parameter. -/
theorem test_vS5_vS6_push :
    faultOf (stepOn (checked 0x80 (at3 0 0 0 0x80)) [0x45, 0]) = some ⟨.stackOverflow, 0, 0x45, 0x80⟩ ∧
    see 7 (stepOn (checked 0x80 (at3 0 0 0 0x81)) [0x45, 0]) = some (0x80, 2, .running) := by decide
/-- V-S10 -/
theorem test_vS10_pop : see 7 (stepOn (withBytes (at3 0 0 0 0xF3) 0xF3 [0x10]) [0x46, 7]) = some (0x11, 2, .running) := by decide
/-- V-S11 and V-S13: only F4 counts as empty, and the pointer wraps. -/
theorem test_vS11_vS13_pop :
    faultOf (stepOn (at3 0 0x33 0 0xF4) [0x46, 0]) = some ⟨.stackUnderflow, 0, 0x46, 0xF4⟩ ∧
    see 7 (stepOn (withBytes (at3 0 0 0 0xFF) 0xFF [0x66]) [0x46, 0]) = some (0, 2, .running) := by decide

/-! ### CALL and RET (95_test_vectors.md 2.5) -/

/-- V-C2 -/
theorem test_vC2_call : (stepOn (at3 0 0 0 0xF4) [0x50, 7]).map (fun t => (t.sp, t.memRead 0xF3, t.pc)) =
    some (0xF3, 2, 0xF3) := by decide
/-- V-C3 and V-C4: with and without the parameter, at x[7] = 0. -/
theorem test_vC3_vC4_call :
    (stepOn (at3 0 0 0x40 0) [0x50, 1]).map (fun t => (t.sp, t.memRead 0xFF, t.pc)) = some (0xFF, 2, 0x40) ∧
    faultOf (stepOn (checked 0 (at3 0 0 0x40 0)) [0x50, 1]) = some ⟨.stackOverflow, 0, 0x50, 0⟩ := by decide
/-- V-R2: an empty stack is no fault. -/
theorem test_vR2_ret : see 7 (stepOn (at3 0 0 0 0xF4) [0x11]) = some (0xF5, 0, .running) := by decide
/-- V-R3 -/
theorem test_vR3_ret : see 7 (stepOn (withBytes (at3 0 0 0 0xFF) 0xFF [0x20]) [0x11]) = some (0, 0x20, .running) := by decide

/-! ### The host (95_test_vectors.md 2.6) -/

/-- V-X1, V-X4 and V-X5: the refusals. -/
theorem test_vX1_vX4_vX5 :
    (∀ bytes : List Byte, bytes.length = 257 → (hostCommand (.load bytes) State.reset).1 = .refused) ∧
    (hostCommand (.load [1]) { State.reset with status := .halted }).1 = .refused ∧
    (hostCommand .run { State.reset with status := .faulted }).1 = .refused :=
  ⟨fun bytes h => by simp [hostCommand, hostLoad, Config.memSize, h], rfl, rfl⟩
/-- The host prints 8 as its digit and a line terminator (42_ldi_prn_halt.md R122, R123). -/
theorem test_render : renderOut ['\n'] [8, 0xF4] = ['8', '\n', '2', '4', '4', '\n'] := by decide
/-- V-X3's end, by a run of at most two steps. -/
theorem test_run_unloaded : ((runToEnd 2 (hostCommand .run State.reset).2).bind (·.fault)) = some ⟨.decodeError, 0, 0, 0⟩ := by decide

/-! ### Witnesses: states and operands that meet each statement's hypotheses -/

/-- EncodeOfDecode, and the last clause of OperandCountThreeIsIllegal. -/
theorem witness_EncodeOfDecode : decode [0xA0#8, 7#8, 255#8, 9#8] = .ok (.add 7 255, [9#8]) := rfl
/-- TwelveOpcodesRecognised: each clause, at 0xA4 and 0xA5. -/
theorem witness_TwelveOpcodesRecognised :
    0xA4#8 ∈ [0x01#8, 0x11#8, 0x45#8, 0x46#8, 0x47#8, 0x50#8, 0x82#8, 0xA0#8, 0xA1#8, 0xA2#8, 0xA3#8, 0xA4#8] ∧
    0xA5#8 ∉ [0x01#8, 0x11#8, 0x45#8, 0x46#8, 0x47#8, 0x50#8, 0x82#8, 0xA0#8, 0xA1#8, 0xA2#8, 0xA3#8, 0xA4#8] := by decide
/-- OperandCountThreeIsIllegal: 0xC0 has the count 3 and 0xBF has not; a RUNNING core meets it at pc 253. -/
theorem witness_OperandCountThreeIsIllegal :
    opN 0xC0 = 3 ∧ opN 0xBF = 2 ∧
    (withBytes (at3 253 0 0 0xF4) 253 [0xC0]).status = .running ∧ (at3 253 0 0 0xF4).pc.toNat ≤ 253 ∧
    opN ((withBytes (at3 253 0 0 0xF4) 253 [0xC0]).memRead 253) = 3 := by decide
/-- InstructionTextAssembles, at the last register and the last immediate. -/
theorem witness_InstructionTextAssembles : (Instr.ldi 7 255).wellFormed = true := by decide
/-- UnusedWindowBytesIgnored: PRN with different b, and HALT with different a and b. -/
theorem witness_UnusedWindowBytesIgnored :
    ((1 ≤ opN 0x47 → (5 : Byte) = 5) ∧ (2 ≤ opN 0x47 → (1 : Byte) = 2)) ∧
    ((1 ≤ opN 0x01 → (3 : Byte) = 4) ∧ (2 ≤ opN 0x01 → (1 : Byte) = 2)) := by decide
/-- StepRunsDecodedInstruction, at pc 253, on a CALL. -/
theorem witness_StepRunsDecodedInstruction :
    let s := withBytes (at3 253 0 0 0xF4) 253 [0x50, 1]
    s.status = .running ∧ s.pc.toNat ≤ 253 ∧
      decode [s.memRead s.pc, s.memRead (s.pc + 1), s.memRead (s.pc + 2)] = .ok (.call 1, [0]) := ⟨rfl, by decide, rfl⟩
/-- PlacedWordIsExecuted. -/
theorem witness_PlacedWordIsExecuted : decodeTableWord 16 0x0745 = some (.push 7) := by decide
/-- FetchBeyondMemoryFaults, at 254 and 255. -/
theorem witness_FetchBeyondMemoryFaults :
    (at3 254 0 0 0xF4).status = .running ∧ 254 ≤ (at3 254 0 0 0xF4).pc.toNat ∧ 254 ≤ (at3 255 0 0 0xF4).pc.toNat := by decide
/-- UnregisteredOpcodeFaults, on the byte 0xA5 at 253. -/
theorem witness_UnregisteredOpcodeFaults :
    let s := withBytes (at3 253 0 0 0xF4) 253 [0xA5]
    s.status = .running ∧ s.pc.toNat ≤ 253 ∧ s.memRead s.pc ∉ dispatchTable.map Prod.fst := by decide
/-- NoStepUnlessRunning, in each of the three other run states. -/
theorem witness_NoStepUnlessRunning :
    State.reset.status ≠ .running ∧ State.reset.halt.status ≠ .running ∧ (State.reset.raise .decodeError 0).status ≠ .running := by
  decide
/-- StepIsConsolidatedStep, and the step clauses of RunStateTransitions: a RUNNING core has a next state. -/
theorem witness_RunningStep : (at3 0 0 0 0xF4).status = .running ∧ ∃ t, step (at3 0 0 0 0xF4) = .next t := ⟨rfl, _, rfl⟩
/-- FaultedStepIsPrecise: a RUNNING core whose step ends in FAULTED, with each cause that has an info to fit: POP on the empty stack; the
fetch at 255; the advance of an LDI at 253; and ADD with a bad operand b after a good a (60_exceptions.md R151). -/
theorem witness_FaultedStepIsPrecise :
    ((stepOn (at3 0 0 0 0xF4) [0x46, 0]).bind (·.fault)).map (·.info) = some 0xF4 ∧
    ((stepOn (at3 255 0 0 0xF4) []).bind (·.fault)).map (·.info) = some 257 ∧
    ((nextState? (step (withBytes (at3 253 0 0 0xF4) 253 [0x82, 0, 1]))).bind (·.fault)).map (·.info) = some 256 ∧
    ((stepOn (at3 0 0 0 0xF4) [0xA0, 7, 9]).bind (·.fault)).map (·.info) = some 9 := by decide
/-- RunStateTransitions: each host clause's run state. -/
theorem witness_RunStateTransitions :
    State.reset.status = .idle ∧ State.reset.halt.status = .halted ∧ (State.reset.raise .decodeError 0).status = .faulted := by decide
/-- PcAdvance: each clause, with no fault. -/
theorem witness_PcAdvance :
    (∃ t, exec .halt (at3 5 0 0 0xF4) = .next t ∧ t.status ≠ .faulted) ∧
    (∃ t, exec (.add (regByte 0) (regByte 7)) (at3 252 0 0 0xF4) = .next t ∧ t.status ≠ .faulted) ∧
    (∃ t, exec (.call (regByte 7)) (at3 253 0 0 0) = .next t ∧ t.status ≠ .faulted) ∧
    (∃ t, exec .ret (at3 0 0 0 0xFF) = .next t ∧ t.status ≠ .faulted) :=
  ⟨⟨_, rfl, by decide⟩, ⟨_, rfl, by decide⟩, ⟨_, rfl, by decide⟩, ⟨_, rfl, by decide⟩⟩
/-- AddInstruction, SubInstruction, MulInstruction, DivInstruction, ModInstruction, LdiInstruction: the completion at its boundary,
pc 252, and the two exceptions at theirs, an operand byte 8 and pc 253. -/
theorem witness_ThreeByteInstructions :
    (at3 252 1 2 0xF4).pc.toNat + 3 ≤ 255 ∧ 8 ≤ (8 : Byte).toNat ∧ (at3 253 1 2 0xF4).pc = 253 := by decide
/-- DivInstruction and ModInstruction: both branches. -/
theorem witness_DivModBranches :
    ((at3 252 1 0 0xF4).readReg 1).toNat = 0 ∧ ((at3 252 1 2 0xF4).readReg 1).toNat ≠ 0 := by decide
/-- QuotientAndRemainder, at pc 252 with the divisor 1. -/
theorem witness_QuotientAndRemainder :
    (at3 252 200 1 0xF4).pc.toNat + 3 ≤ 255 ∧ 0 < ((at3 252 200 1 0xF4).readReg 1).toNat := by decide
/-- AluFrame: a completing form, a zero divisor and a fault. -/
theorem witness_AluFrame :
    (∃ t, exec (.add 0 1) (at3 0 1 2 0xF4) = .next t ∧ t.readReg 0 = 3) ∧
    (∃ t, exec (.div 0 1) (at3 0 1 0 0xF4) = .next t ∧ t.diag ≠ []) ∧
    (∃ t, exec (.mod 8 1) (at3 0 1 0 0xF4) = .next t ∧ t.status = .faulted) :=
  ⟨⟨_, rfl, by decide⟩, ⟨_, rfl, by decide⟩, ⟨_, rfl, by decide⟩⟩
/-- PrnInstruction, at pc 253, the last whose advance stays in range within a window, and its exception. -/
theorem witness_PrnInstruction : (at3 253 0 0 0xF4).pc.toNat + 2 ≤ 255 ∧ 8 ≤ (255 : Byte).toNat := by decide
/-- HaltInstruction: a HALT byte at 253, and one at 254. -/
theorem witness_HaltInstruction :
    (withBytes (at3 253 0 0 0xF4) 253 [1]).memRead 253 = 1 ∧ (withBytes (at3 254 0 0 0xF4) 254 [1]).memRead 254 = 1 := by decide
/-- LdiPrnHaltFrame. -/
theorem witness_LdiPrnHaltFrame :
    (∃ t, exec (.ldi 7 9) (at3 0 0 0 0xF4) = .next t ∧ t.readReg 7 = 9) ∧
    (∃ t, exec (.prn 7) (at3 0 0 0 0xF4) = .next t ∧ t.out = [0xF4]) ∧
    (∃ t, exec .halt (at3 0 0 0 0xF4) = .next t ∧ t.status = .halted) :=
  ⟨⟨_, rfl, by decide⟩, ⟨_, rfl, by decide⟩, ⟨_, rfl, by decide⟩⟩
/-- PushInstruction and PushOfStackPointer: just above the bound, and at it, with a bound of 0x80. -/
theorem witness_PushInstruction :
    (checked 0x80 (at3 253 0 0 0x81)).pc.toNat + 2 ≤ 255 ∧
    (checked 0x80 (at3 253 0 0 0x81)).params.stackMin.val < (checked 0x80 (at3 253 0 0 0x81)).sp.toNat ∧
    (checked 0x80 (at3 253 0 0 0x80)).sp.toNat ≤ (checked 0x80 (at3 253 0 0 0x80)).params.stackMin.val := by decide
/-- PopInstruction: next to the empty value, and at it. -/
theorem witness_PopInstruction :
    (0 : RegIdx) ≠ 7 ∧ (at3 253 0 0 0xF5).pc.toNat + 2 ≤ 255 ∧ (at3 253 0 0 0xF5).sp ≠ 0xF4 ∧ (at3 253 0 0 0xF4).sp = 0xF4 := by
  decide
/-- LifoLaw: a sequence that meets the condition on every instruction. -/
theorem witness_LifoLaw : ∀ i ∈ [Instr.push 0, Instr.ldi 0 9, Instr.pop 1], inLifoSequence i = true := by decide
/-- LifoLaw: that sequence runs with no fault, and its POP is of a value that its PUSH pushed. -/
theorem witness_LifoLaw_popsPushed :
    ∃ t u v, exec (.push 0) (at3 0 5 0 0xF4) = .next t ∧ t.status ≠ .faulted ∧ exec (.ldi 0 9) t = .next u ∧ u.status ≠ .faulted ∧
      exec (.pop 1) u = .next v ∧ v.status ≠ .faulted ∧ v.readReg 1 = 5 ∧ v.sp = 0xF4 :=
  ⟨_, _, _, rfl, by decide, rfl, by decide, rfl, by decide, by decide, by decide⟩
/-- LifoLaw: a sequence that pops first, through the wrap of x[7] from 0xFF to 0 and on, runs with no fault, and after as many pushes
x[7] is back. -/
theorem witness_LifoLaw_popsFirst :
    ∃ t u v, exec (.pop 0) (at3 0 5 0 0xFE) = .next t ∧ t.status ≠ .faulted ∧ exec (.pop 1) t = .next u ∧ u.sp = 0 ∧
      u.status ≠ .faulted ∧ exec (.pop 1) u = .next v ∧ v.status ≠ .faulted ∧ v.sp = 1 ∧
      (∃ w, exec (.push 0) v = .next w ∧ w.status ≠ .faulted ∧ w.sp = 0) :=
  ⟨_, _, _, rfl, by decide, rfl, by decide, by decide, rfl, by decide, by decide, _, rfl, by decide, by decide⟩
/-- LifoLaw: POP then PUSH, after which x[7] is back. -/
theorem witness_LifoLaw_popPush :
    ∃ t u, exec (.pop 0) (at3 0 5 0 0xF3) = .next t ∧ t.status ≠ .faulted ∧ exec (.push 0) t = .next u ∧ u.status ≠ .faulted ∧
      u.sp = 0xF3 := ⟨_, _, rfl, by decide, rfl, by decide, by decide⟩
/-- PushCallFrame. -/
theorem witness_PushCallFrame :
    (∃ t, exec (.push 0) (at3 0 5 0 0xF4) = .next t ∧ t.memRead 0xF3 = 5) ∧
    (∃ t, exec (.call 1) (at3 3 0 8 0xF4) = .next t ∧ t.memRead 0xF3 = 5) := ⟨⟨_, rfl, by decide⟩, ⟨_, rfl, by decide⟩⟩
/-- PopRetFrame. -/
theorem witness_PopRetFrame :
    (∃ t, exec (.pop 1) (withBytes (at3 0 0 0 0xF3) 0xF3 [7]) = .next t ∧ t.readReg 1 = 7) ∧
    (∃ t, exec .ret (withBytes (at3 0 0 0 0xF3) 0xF3 [7]) = .next t ∧ t.pc = 7) := ⟨⟨_, rfl, by decide⟩, ⟨_, rfl, by decide⟩⟩
/-- CallInstruction and CallOfStackPointer: without the check at x[7] = 0, with it just above the bound, and at the bound. -/
theorem witness_CallInstruction :
    (at3 253 0 0 0).pc.toNat ≤ 253 ∧ (at3 253 0 0 0).params.callChecksOverflow = false ∧
    ¬ ((checked 0x80 (at3 253 0 0 0x81)).params.callChecksOverflow = true ∧
      (checked 0x80 (at3 253 0 0 0x81)).sp.toNat ≤ (checked 0x80 (at3 253 0 0 0x81)).params.stackMin.val) ∧
    (checked 0x80 (at3 253 0 0 0x80)).params.callChecksOverflow = true ∧
    (checked 0x80 (at3 253 0 0 0x80)).sp.toNat ≤ (checked 0x80 (at3 253 0 0 0x80)).params.stackMin.val := by decide
/-- CallReturnLaw: the state right after the CALL is one in which the RET may execute. -/
theorem witness_CallReturnLaw :
    ∃ t, (at3 253 0 8 0).pc.toNat ≤ 253 ∧ exec (.call 1) (at3 253 0 8 0) = .next t ∧ t.status ≠ .faulted ∧
      t.sp = t.sp ∧ t.memRead t.sp = 255 := ⟨_, by decide, rfl, by decide, rfl, by decide⟩
/-- FirstBadRegisterFaults: a bad operand a, and a bad operand b after a good a. -/
theorem witness_FirstBadRegisterFaults :
    (Instr.add 8 9).regOperands.find? (fun r => decide (8 ≤ r.toNat)) = some 8 ∧
    (Instr.add 7 8).regOperands.find? (fun r => decide (8 ≤ r.toNat)) = some 8 := by decide
/-- AdvanceBeyondMemoryFaults: LDI at 253, the first pc it faults at. -/
theorem witness_AdvanceBeyondMemoryFaults :
    (Instr.ldi 0 1).wellFormed = true ∧ Instr.ldi 0 1 ≠ .halt ∧ opSetsPc (Instr.ldi 0 1).opcode = false ∧
    255 < (at3 253 0 0 0xF4).pc.toNat + opN (Instr.ldi 0 1).opcode + 1 := by decide
/-- OnlyPushAndCallWriteMemory: a step that changes a byte. -/
theorem witness_OnlyPushAndCallWriteMemory :
    ∃ t, step (withBytes (at3 0 5 0 0xF4) 0 [0x45, 0]) = .next t ∧
      t.memRead 0xF3 ≠ (withBytes (at3 0 5 0 0xF4) 0 [0x45, 0]).memRead 0xF3 := ⟨_, rfl, by decide⟩
/-- OnlyPrnEmits and OnlyDivisionReports: a step that emits, and one that reports. -/
theorem witness_Ports :
    (∃ t, step (withBytes (at3 0 5 0 0xF4) 0 [0x47, 0]) = .next t ∧ t.out = [5]) ∧
    (∃ t, step (withBytes (at3 0 5 0 0xF4) 0 [0xA3, 0, 1]) = .next t ∧ t.diag ≠ []) := ⟨⟨_, rfl, by decide⟩, ⟨_, rfl, by decide⟩⟩
/-- WrittenByteIsFetched: a PUSH over the byte at the next pc, and a CALL R7. -/
theorem witness_WrittenByteIsFetched :
    (∃ t, exec (.push (regByte 0)) (at3 6 1 0 9) = .next t ∧ t.status ≠ .faulted ∧ t.pc = 8 ∧ t.fetchWindow.op = 1) ∧
    (∃ t, exec (.call 7) (at3 0 0 0 0xF4) = .next t ∧ t.status ≠ .faulted ∧ t.fetchWindow.op = 2) :=
  ⟨⟨_, rfl, by decide, by decide, by decide⟩, ⟨_, rfl, by decide, by decide⟩⟩
/-- StepKeepsInvariant and HostCommandKeepsInvariant: a RUNNING state that meets the invariant, and lists a byte, has a next state. -/
theorem witness_StepKeepsInvariant :
    (withBytes (at3 0 5 0 0xF4) 0 [0x45, 0]).Inv ∧ ∃ t, step (withBytes (at3 0 5 0 0xF4) 0 [0x45, 0]) = .next t :=
  ⟨⟨by decide, by decide, by intro f hf; cases hf⟩, _, rfl⟩
/-- ResetValues: the state that `reset` leaves, from any state. -/
theorem witness_ResetValues : ∃ t, hostCommand .reset (at3 9 1 1 1) = (.accepted, t) := ⟨_, rfl⟩
/-- LoadCommand: 256 bytes, 257 bytes, and a core that is not IDLE. -/
theorem witness_LoadCommand :
    (State.reset.status = .idle ∧ (List.replicate 256 (1 : Byte)).length ≤ 256) ∧
    ¬ (State.reset.status = .idle ∧ (List.replicate 257 (1 : Byte)).length ≤ 256) ∧
    ¬ ((at3 0 0 0 0).status = .idle ∧ ([] : List Byte).length ≤ 256) :=
  ⟨⟨rfl, by rw [List.length_replicate]⟩, by rw [List.length_replicate]; decide, by decide⟩
/-- RunCommand and RunHasNoStepLimit: a run that ends, after one step. -/
theorem witness_RunEnds : ∃ t, runToEnd 1 (withBytes (at3 0 0 0 0xF4) 0 [1]) = some t ∧ t.status = .halted := ⟨_, rfl, by decide⟩
/-- PUSH R0 and RET at 0 with x[0] = 0: the loop of program P5, whose two steps lead back to the same state. -/
def loopStart : State := withBytes (at3 0 0 0 0xF4) 0 [0x45, 0, 0x11]
/-- The loop's state between its two steps. -/
def loopMiddle : State := (stepOn (at3 0 0 0 0xF4) [0x45, 0, 0x11]).getD State.reset
/-- RunHasNoStepLimit: a run that ends within no number of steps. -/
theorem witness_RunNeverEnds : ∀ n, runToEnd n loopStart = none ∧ runToEnd n loopMiddle = none := by
  have h1 : ∀ n, runToEnd (n + 1) loopStart = runToEnd n loopMiddle := fun _ => rfl
  have h2 : ∀ n, runToEnd (n + 1) loopMiddle = runToEnd n loopStart := fun _ => rfl
  intro n
  induction n with
  | zero => exact ⟨by decide, by decide⟩
  | succ n ih => exact ⟨h1 n ▸ ih.2, h2 n ▸ ih.1⟩
/-- RunAfterHalt. -/
theorem witness_RunAfterHalt :
    ∃ t, (withBytes (at3 0 0 0 0xF4) 0 [1]).status = .running ∧ step (withBytes (at3 0 0 0 0xF4) 0 [1]) = .next t ∧
      t.status = .halted := ⟨_, rfl, rfl, rfl⟩
/-- FaultedIsTerminal and ExitCodesTellEndsApart: a FAULTED state with its record, and a map that meets the constraint. -/
theorem witness_FaultedIsTerminal :
    (State.reset.raise .decodeError 0).status = .faulted ∧ (State.reset.raise .decodeError 0).fault.isSome = true ∧
    HostCommand.run ≠ .reset ∧ ExitCodes.wf ⟨1, 2, 3, 4, 5⟩ = true ∧ State.reset.halt.status = .halted := by decide

end Sys2Proof.Tests
end

section
/-! PROOF. PUSH and CALL where no check raises, and their operand R7 (43_stack.md R133, 44_call_ret.md R141). -/

namespace Sys2Proof.Machine

/-! ### The checks where they pass -/

theorem State.withNextPc_of_le (s : State) {n : Nat} (h : s.pc.toNat + n + 1 ≤ 255) (k : Byte → State) :
    s.withNextPc n k = k (BitVec.ofNat 8 (s.pc.toNat + n + 1)) := if_neg (by omega)

theorem State.withStackRoom_of_lt (s t : State) (h : s.params.stackMin.val < s.sp.toNat) : s.withStackRoom t = t :=
  if_neg (by omega)

theorem State.withCallRoom_of_not (s t : State)
    (h : ¬ (s.params.callChecksOverflow = true ∧ s.sp.toNat ≤ s.params.stackMin.val)) : s.withCallRoom t = t := by
  obtain ⟨hc, hle, -⟩ | ⟨-, e⟩ := s.withCallRoom_cases t
  · exact absurd ⟨hc, hle⟩ h
  · exact e

/-! ### The stack pointer and the pushed byte -/

@[simp] theorem State.sp_setPc (s : State) (target : Byte) : (s.setPc target).sp = s.sp := rfl

@[simp] theorem State.sp_pushByte (s : State) (v : Byte) : (s.pushByte v).sp = s.sp - 1 := s.sp_decSp

theorem State.memRead_pushByte_same (s : State) (v : Byte) : (s.pushByte v).memRead (s.sp - 1) = v := by
  rw [State.memRead_pushByte, if_pos rfl]

/-- R7's number is the operand byte of the stack pointer. -/
theorem regByte_spIdx : regByte spIdx = 7 := rfl

/-! ### PUSH and CALL -/

/-- A PUSH that no check stops: the decrement, the read of `x[a]` after it, the store, and the advance (43_stack.md R131). -/
theorem exec_push_of_room (ra : RegIdx) {s : State} (hpc : s.pc.toNat + 2 ≤ 255)
    (hroom : s.params.stackMin.val < s.sp.toNat) :
    exec (.push (regByte ra)) s =
      .next ((s.pushByte (s.decSp.readReg ra)).setPc (BitVec.ofNat 8 (s.pc.toNat + 2))) := by
  simp only [exec, execPush, s.withReg_some (regIndex_regByte ra), opN_push, s.withNextPc_of_le hpc,
    s.withStackRoom_of_lt _ hroom]

/-- A CALL that no check stops: the push of the return address, then the read of the target (44_call_ret.md R140). -/
theorem exec_call_of_room (ra : RegIdx) {s : State}
    (hroom : ¬ (s.params.callChecksOverflow = true ∧ s.sp.toNat ≤ s.params.stackMin.val)) :
    exec (.call (regByte ra)) s =
      .next ((s.pushByte s.returnAddress).setPc ((s.pushByte s.returnAddress).readReg ra)) := by
  simp only [exec, execCall, s.withReg_some (regIndex_regByte ra), s.withCallRoom_of_not _ hroom]

/-- Settles O32: PUSH reads its operand after the decrement, and for R7 that is the decremented pointer. -/
theorem pushOfStackPointer : Obligations.PushOfStackPointer := by
  intro s hpc hroom
  have hexec : exec (.push 7) s = .next ((s.pushByte (s.sp - 1)).setPc (BitVec.ofNat 8 (s.pc.toNat + 2))) := by
    rw [← regByte_spIdx, exec_push_of_room spIdx hpc hroom, State.readReg_decSp, if_pos rfl]
  refine ⟨_, hexec, ?sp, ?cell⟩
  case sp => rw [State.sp_setPc, State.sp_pushByte]
  case cell => rw [State.memRead_setPc, State.memRead_pushByte_same]

/-- Settles O37: CALL reads its target after the push, and for R7 that is the address of the cell just written. -/
theorem callOfStackPointer : Obligations.CallOfStackPointer := by
  intro s _ hcheck
  have hroom : ¬ (s.params.callChecksOverflow = true ∧ s.sp.toNat ≤ s.params.stackMin.val) := by simp [hcheck]
  have hexec : exec (.call 7) s = .next ((s.pushByte s.returnAddress).setPc (s.sp - 1)) := by
    rw [← regByte_spIdx, exec_call_of_room spIdx hroom, State.readReg_pushByte, if_pos rfl]
  refine ⟨_, hexec, ?target, ?cell⟩
  case target => rw [State.setPc_pc]
  case cell => rw [State.setPc_pc, State.memRead_setPc, State.memRead_pushByte_same, State.returnAddress]

end Sys2Proof.Machine
end

section
/-! PROOF. The host's `load` (10_state.md R40). -/

namespace Sys2Proof.Machine

/-! ### The reply and the state that `load` leaves -/

theorem hostCommand_load_of_fits {bytes : List Byte} {s : State} (h : s.status = .idle ∧ bytes.length ≤ Config.memSize) :
    hostCommand (.load bytes) s =
      (.accepted, { s with mem := Memory.writeBytes s.mem Config.loadBase bytes }) := if_pos h

theorem hostCommand_load_of_not_fits {bytes : List Byte} {s : State}
    (h : ¬ (s.status = .idle ∧ bytes.length ≤ Config.memSize)) :
    hostCommand (.load bytes) s = (.refused, s) := if_neg h

/-- The load base is address 0, so cell `b` holds byte `b` of the loaded ones. -/
theorem Memory.read_writeBytes_loadBase (m : Memory) (bytes : List Byte) (b : Nat) :
    Memory.read (Memory.writeBytes m Config.loadBase bytes) b =
      if h : b < bytes.length then bytes[b] else Memory.read m b := by
  rw [Memory.read_writeBytes, Config.loadBase, Nat.zero_add, Nat.sub_zero]
  by_cases h : b < bytes.length
  · rw [if_pos ⟨Nat.zero_le b, h⟩, dif_pos h, List.getD_eq_getElem _ _ h]
  · rw [if_neg (fun hb => h hb.2), dif_neg h]

/-- Settles O52: the accepted `load` is the consecutive writes from address 0, and any other `load` is refused. -/
theorem loadCommand : Obligations.LoadCommand := by
  refine ⟨fun bytes s hidle hlen => ?accepted, fun bytes s hnot => ?refused⟩
  case accepted =>
    exact ⟨_, hostCommand_load_of_fits ⟨hidle, hlen⟩, fun addr => Memory.read_writeBytes_loadBase s.mem bytes addr.toNat⟩
  case refused => exact hostCommand_load_of_not_fits hnot

end Sys2Proof.Machine
end

section
/-! PROOF. The operand count 3 (30_encoding.md R70): no instruction has it, so the decoder and a step reject its bytes. -/

namespace Sys2Proof

/-! ### The count of a byte, and that of an instruction -/

theorem opN_eq_div (op : Byte) : opN op = op.toNat / 64 := by
  rw [opN, BitVec.toNat_ushiftRight, Nat.shiftRight_eq_div_pow]

/-- The count 3 is that of the top quarter of the byte values. -/
theorem opN_eq_three_iff (op : Byte) : opN op = 3 ↔ 0xC0 ≤ op.toNat := by
  have hop := op.isLt
  rw [opN_eq_div]
  omega

/-- The encoded form's facts, constructor by constructor, are facts about every instruction. -/
theorem Instr.encodedForm : ∀ i : Instr, Laws.EncodedForm.Statement i
  | .halt => Laws.EncodedForm.halt
  | .ret => Laws.EncodedForm.ret
  | .push a => Laws.EncodedForm.push a
  | .pop a => Laws.EncodedForm.pop a
  | .prn a => Laws.EncodedForm.prn a
  | .call a => Laws.EncodedForm.call a
  | .ldi a imm => Laws.EncodedForm.ldi a imm
  | .add a b => Laws.EncodedForm.add a b
  | .sub a b => Laws.EncodedForm.sub a b
  | .mul a b => Laws.EncodedForm.mul a b
  | .div a b => Laws.EncodedForm.div a b
  | .mod a b => Laws.EncodedForm.mod a b

theorem Instr.opN_opcode_le_two (i : Instr) : opN i.opcode ≤ 2 := by
  obtain ⟨-, -, hn⟩ := i.encodedForm
  exact hn

/-! ### The bytes that select a handler -/

/-- A selected handler makes an instruction whose opcode is the byte that selected it. -/
theorem opcode_of_selectHandler {op : Byte} {h : Handler} (hs : selectHandler op = some h) (a b : Byte) :
    (h a b).opcode = op := by
  obtain ⟨rfl, rfl⟩ | ⟨rfl, rfl⟩ | ⟨rfl, rfl⟩ | ⟨rfl, rfl⟩ | ⟨rfl, rfl⟩ | ⟨rfl, rfl⟩ | ⟨rfl, rfl⟩ | ⟨rfl, rfl⟩ | ⟨rfl, rfl⟩ |
    ⟨rfl, rfl⟩ | ⟨rfl, rfl⟩ | ⟨rfl, rfl⟩ := selectHandler_cases hs <;> rfl

theorem opN_le_two_of_selectHandler {op : Byte} {h : Handler} (hs : selectHandler op = some h) : opN op ≤ 2 := by
  rw [← opcode_of_selectHandler hs 0 0]
  exact Instr.opN_opcode_le_two _

theorem selectHandler_of_opN_three {op : Byte} (hn : opN op = 3) : selectHandler op = none := by
  cases hs : selectHandler op with
  | none => rfl
  | some h => exact absurd (opN_le_two_of_selectHandler hs) (by omega)

/-! ### The decoder -/

theorem decodeWindow_of_selectHandler_none {op : Byte} (hs : selectHandler op = none) (a b : Byte) :
    decodeWindow op a b = .error (.illegalOpcode op) := by
  rw [decodeWindow, hs]

theorem selectHandler_of_decodeWindow_ok {op a b : Byte} {i : Instr} (hd : decodeWindow op a b = .ok i) :
    ∃ h, selectHandler op = some h ∧ i = h a b := by
  cases hs : selectHandler op with
  | none => rw [decodeWindow_of_selectHandler_none hs] at hd; cases hd
  | some h => rw [decodeWindow, hs] at hd; cases hd; exact ⟨h, rfl, rfl⟩

/-- A byte sequence that decodes is an opcode byte with at least its count of bytes after it, and the decoder drops that many
(30_encoding.md R65). -/
theorem decode_ok_cases {bytes rest : List Byte} {i : Instr} (hd : decode bytes = .ok (i, rest)) :
    ∃ op tail, bytes = op :: tail ∧ decodeWindow op (tail.getD 0 0) (tail.getD 1 0) = .ok i ∧
      opN op ≤ tail.length ∧ rest = tail.drop (opN op) := by
  cases bytes with
  | nil => cases hd
  | cons op tail =>
    rw [decode] at hd
    split at hd
    next => cases hd
    next j hw =>
      split at hd
      next hlen => cases hd; exact ⟨op, tail, rfl, hw, hlen, rfl⟩
      next => cases hd

/-- What a decode consumes: the opcode byte and the byte's count of operands, which is at most 2. -/
theorem decode_length_le {bytes rest : List Byte} {i : Instr} (hd : decode bytes = .ok (i, rest)) :
    bytes.length ≤ rest.length + 3 := by
  obtain ⟨op, tail, rfl, hw, hlen, rfl⟩ := decode_ok_cases hd
  obtain ⟨h, hs, -⟩ := selectHandler_of_decodeWindow_ok hw
  have hn := opN_le_two_of_selectHandler hs
  rw [List.length_cons, List.length_drop]
  omega

end Sys2Proof

namespace Sys2Proof.Machine

/-! ### The step -/

/-- A byte in memory that selects no handler raises DecodeError when it is fetched (40_cycle.md R90). -/
theorem step_of_selectHandler_none {s : State} (hrun : s.status = .running) (hpc : s.pc.toNat ≤ 253)
    (hs : selectHandler (s.memRead s.pc) = none) : step s = .next (s.raise .decodeError 0) := by
  obtain ⟨hbeyond, -⟩ | ⟨-, -, hf⟩ | ⟨h, -, hsome, -⟩ := s.fetchInstr_cases
  · omega
  · rw [step_of_running hrun, hf]
  · rw [hs] at hsome; cases hsome

/-- Settles O4: every instruction's count is at most 2, so a byte of count 3 selects no handler. -/
theorem operandCountThreeIsIllegal : Obligations.OperandCountThreeIsIllegal := by
  refine ⟨opN_eq_three_iff, fun i => ?noInstruction, fun op a b hn => ?decoder, fun s hrun hpc hn => ?step,
    fun _ _ _ => decode_length_le⟩
  case noInstruction =>
    have hle := i.opN_opcode_le_two
    omega
  case decoder => exact decodeWindow_of_selectHandler_none (selectHandler_of_opN_three hn) a b
  case step => exact step_of_selectHandler_none hrun hpc (selectHandler_of_opN_three hn)

end Sys2Proof.Machine
end

section
/-! PROOF. The opcode bytes with no entry in the dispatch table (40_cycle.md R90). -/

namespace Sys2Proof.Machine

/-- A byte that selects a handler is one of the table's: it is the opcode of the instruction the handler makes. -/
theorem mem_dispatchTable_of_selectHandler {op : Byte} {h : Handler} (hs : selectHandler op = some h) :
    op ∈ dispatchTable.map Prod.fst := by
  obtain ⟨hmem, -⟩ := (h 0 0).encodedForm
  rwa [opcode_of_selectHandler hs] at hmem

theorem selectHandler_of_not_mem_dispatchTable {op : Byte} (hop : op ∉ dispatchTable.map Prod.fst) :
    selectHandler op = none := by
  cases hs : selectHandler op with
  | none => rfl
  | some h => exact absurd (mem_dispatchTable_of_selectHandler hs) hop

/-- Settles O12: a byte outside the table selects no handler, so its fetch raises DecodeError. -/
theorem unregisteredOpcodeFaults : Obligations.UnregisteredOpcodeFaults := by
  intro s hrun hpc hop
  rw [State.faultedBy_eq_raise]
  exact step_of_selectHandler_none hrun hpc (selectHandler_of_not_mem_dispatchTable hop)

end Sys2Proof.Machine
end

section
/-! PROOF. How an instruction that completes leaves PC (40_cycle.md R94). Each check an instruction makes either raises a cause or
goes on, so where the result is not FAULTED its pc is the one that the innermost `setPc` gave. -/

namespace Sys2Proof.Machine

/-- Unless a fatal cause was raised, the pc is at the given address. -/
def State.CompletesAt (t : State) (target : Nat) : Prop := t.status ≠ .faulted → t.pc.toNat = target

/-! ### The checks -/

theorem State.completesAt_raise (s : State) (cause : FaultCause) (info target : Nat) :
    (s.raise cause info).CompletesAt target := fun h => absurd (s.raise_status cause info) h

theorem State.completesAt_setPc (s : State) (next : Byte) : (s.setPc next).CompletesAt next.toNat := fun _ => rfl

theorem State.completesAt_withReg {s : State} {b : Byte} {k : RegIdx → State} {target : Nat}
    (hk : ∀ r, (k r).CompletesAt target) : (s.withReg b k).CompletesAt target := by
  obtain ⟨-, e⟩ | ⟨hb, e⟩ := s.withReg_cases b k <;> rw [e]
  · exact s.completesAt_raise _ _ _
  · exact hk ⟨b.toNat, hb⟩

theorem State.completesAt_withStackRoom {s t : State} {target : Nat} (ht : t.CompletesAt target) :
    (s.withStackRoom t).CompletesAt target := by
  obtain ⟨-, e⟩ | ⟨-, e⟩ := s.withStackRoom_cases t <;> rw [e]
  · exact s.completesAt_raise _ _ _
  · exact ht

theorem State.completesAt_withStackItem {s t : State} {target : Nat} (ht : t.CompletesAt target) :
    (s.withStackItem t).CompletesAt target := by
  obtain ⟨-, e⟩ | ⟨-, e⟩ := s.withStackItem_cases t <;> rw [e]
  · exact s.completesAt_raise _ _ _
  · exact ht

/-- The advance check passes on a next pc that lies in memory, so it is the sum itself and not the sum reduced. -/
theorem State.completesAt_withNextPc {s : State} {n : Nat} {k : Byte → State}
    (hk : ∀ next, (k next).CompletesAt next.toNat) : (s.withNextPc n k).CompletesAt (s.pc.toNat + n + 1) := by
  obtain ⟨-, e⟩ | ⟨hle, e⟩ := s.withNextPc_cases n k <;> rw [e]
  · exact s.completesAt_raise _ _ _
  · have hnext : (BitVec.ofNat 8 (s.pc.toNat + n + 1)).toNat = s.pc.toNat + n + 1 := by
      rw [BitVec.toNat_ofNat, Nat.mod_eq_of_lt (by omega)]
    simpa only [hnext] using hk (BitVec.ofNat 8 (s.pc.toNat + n + 1))

theorem State.completesAt_aluStep {s : State} {opcode a b : Byte} {effect : RegIdx → RegIdx → State} :
    (s.aluStep opcode a b effect).CompletesAt (s.pc.toNat + opN opcode + 1) :=
  completesAt_withReg fun _ => completesAt_withReg fun _ => completesAt_withNextPc fun _ => completesAt_setPc _ _

/-! ### The instructions -/

/-- The two opcodes with `sets_pc = 1` are CALL's and RET's (30_encoding.md R72). -/
theorem opSetsPc_opcode_iff (i : Instr) : opSetsPc i.opcode = true ↔ i = .ret ∨ ∃ a, i = .call a := by
  cases i <;> simp [Instr.opcode]

/-- An instruction with `sets_pc = 0` other than HALT completes at PC + n + 1. -/
theorem exec_completesAt_of_sequential {s t : State} : ∀ {i : Instr}, exec i s = .next t → i ≠ .halt →
    opSetsPc i.opcode = false → t.CompletesAt (s.pc.toNat + opN i.opcode + 1)
  | .halt, _, hne, _ => absurd rfl hne
  | .ret, _, _, hseq => absurd opSetsPc_ret (hseq ▸ Bool.false_ne_true)
  | .call _, _, _, hseq => absurd opSetsPc_call (hseq ▸ Bool.false_ne_true)
  | .push _, rfl, _, _ => State.completesAt_withReg fun _ => State.completesAt_withNextPc fun _ =>
      State.completesAt_withStackRoom (State.completesAt_setPc _ _)
  | .pop _, rfl, _, _ => State.completesAt_withReg fun _ => State.completesAt_withNextPc fun _ =>
      State.completesAt_withStackItem (State.completesAt_setPc _ _)
  | .prn _, rfl, _, _ => State.completesAt_withReg fun _ => State.completesAt_withNextPc fun _ => State.completesAt_setPc _ _
  | .ldi _ _, rfl, _, _ => State.completesAt_withReg fun _ => State.completesAt_withNextPc fun _ => State.completesAt_setPc _ _
  | .add _ _, rfl, _, _ => State.completesAt_aluStep
  | .sub _ _, rfl, _, _ => State.completesAt_aluStep
  | .mul _ _, rfl, _, _ => State.completesAt_aluStep
  | .div _ _, rfl, _, _ => State.completesAt_aluStep
  | .mod _ _, rfl, _, _ => State.completesAt_aluStep

/-- A CALL that completes goes to what the register holds after the push (44_call_ret.md R141). -/
theorem exec_call_pc {ra : RegIdx} {s t : State} (hexec : exec (.call (regByte ra)) s = .next t)
    (ht : t.status ≠ .faulted) : t.pc = t.readReg ra := by
  rw [exec, execCall, s.withReg_some (regIndex_regByte ra)] at hexec
  injection hexec with hexec
  obtain ⟨-, -, e⟩ | ⟨-, e⟩ := s.withCallRoom_cases
    ((s.pushByte s.returnAddress).setPc ((s.pushByte s.returnAddress).readReg ra))
  · rw [← hexec, e] at ht
    exact absurd (s.raise_status _ _) ht
  · rw [← hexec, e, State.setPc_pc, State.readReg_setPc]

/-- Settles O18: the pc is the innermost `setPc`'s, and HALT makes none. -/
theorem pcAdvance : Obligations.PcAdvance := by
  intro i s t hexec ht
  refine ⟨?halt, fun hne hseq => exec_completesAt_of_sequential hexec hne hseq ht, ?call, ?ret, opSetsPc_opcode_iff i⟩
  case halt => rintro rfl; cases hexec; exact s.halt_pc
  case call => rintro ra rfl; exact exec_call_pc hexec ht
  case ret => rintro rfl; cases hexec; exact State.setPc_pc _ _

end Sys2Proof.Machine
end

section
/-! PROOF. The host's `run`, and the run it starts (40_cycle.md R97). -/

namespace Sys2Proof.Machine

/-! ### The command -/

theorem hostCommand_run_of_startable {s : State} (h : s.status = .idle ∨ s.status = .halted) :
    hostCommand .run s = (.accepted, { s with status := .running }) := by
  obtain h | h := h <;> simp only [hostCommand, hostRun, h]

theorem hostCommand_run_of_faulted {s : State} (h : s.status = .faulted) : hostCommand .run s = (.refused, s) := by
  simp only [hostCommand, hostRun, h]

theorem hostCommand_run_of_running {s : State} (h : s.status = .running) : hostCommand .run s = (.noEffect, s) := by
  simp only [hostCommand, hostRun, h]

/-! ### The run -/

theorem runToEnd_of_not_running {s : State} (h : s.status ≠ .running) (n : Nat) : runToEnd n s = some s := by
  cases n <;> exact if_neg h

theorem runToEnd_zero_of_running {s : State} (h : s.status = .running) : runToEnd 0 s = none := if_pos h

theorem runToEnd_succ_of_running {s t : State} (h : s.status = .running) (hstep : step s = .next t) (n : Nat) :
    runToEnd (n + 1) s = runToEnd n t := by
  simp only [runToEnd, h, hstep, if_true]

/-- A run that ends is already at its end, or makes a step and ends as the run from the state after it does. -/
theorem runToEnd_some_cases {n : Nat} {s u : State} (hend : runToEnd n s = some u) :
    (s.status ≠ .running ∧ s = u) ∨
      ∃ m t, n = m + 1 ∧ s.status = .running ∧ step s = .next t ∧ runToEnd m t = some u := by
  by_cases h : s.status = .running
  · cases n with
    | zero => rw [runToEnd_zero_of_running h] at hend; cases hend
    | succ m =>
      cases hstep : step s with
      | next t => exact .inr ⟨m, t, rfl, h, rfl, runToEnd_succ_of_running h hstep m ▸ hend⟩
      | fault r => cases r
      | refused r => simp only [runToEnd, h, hstep, if_true] at hend; cases hend
  · rw [runToEnd_of_not_running h] at hend
    exact .inl ⟨h, Option.some.inj hend⟩

/-- A run ends only in a state that is not RUNNING. -/
theorem not_running_of_runToEnd {n : Nat} {s u : State} (hend : runToEnd n s = some u) : u.status ≠ .running := by
  induction n generalizing s with
  | zero =>
    obtain ⟨h, rfl⟩ | ⟨m, t, hm, -⟩ := runToEnd_some_cases hend
    · exact h
    · cases hm
  | succ n ih =>
    obtain ⟨h, rfl⟩ | ⟨m, t, hm, -, -, ht⟩ := runToEnd_some_cases hend
    · exact h
    · cases hm
      exact ih ht

/-- Settles O53: the command by the run state it meets, and the run by induction on the number of steps. -/
theorem runCommand : Obligations.RunCommand :=
  ⟨fun _ => hostCommand_run_of_startable, fun _ => hostCommand_run_of_faulted, fun _ => hostCommand_run_of_running,
    fun n _ _ hrun hstep => runToEnd_succ_of_running hrun hstep n, fun _ _ _ => not_running_of_runToEnd⟩

end Sys2Proof.Machine
end

section
/-! PROOF. The five ALU instructions (41_alu.md R106 to R110). They share one shape: its checks, and so its exceptions, do not depend
on the effect, and where the checks pass the result is the effect at the next pc. -/

namespace Sys2Proof.Machine

/-! ### The shape: the checks that raise, and the completion -/

theorem State.withNextPc_of_gt (s : State) {n : Nat} (h : 255 < s.pc.toNat + n + 1) (k : Byte → State) :
    s.withNextPc n k = s.raise .addressError (s.pc.toNat + n + 1) := if_pos h

theorem State.aluStep_of_ge_left (s : State) (opcode b : Byte) (effect : RegIdx → RegIdx → State) {a : Byte} (ha : 8 ≤ a.toNat) :
    s.aluStep opcode a b effect = s.raise .registerIndexError a.toNat := s.withReg_of_ge ha _

theorem State.aluStep_of_ge_right (s : State) (opcode : Byte) (ra : RegIdx) (effect : RegIdx → RegIdx → State) {b : Byte}
    (hb : 8 ≤ b.toNat) : s.aluStep opcode (regByte ra) b effect = s.raise .registerIndexError b.toNat := by
  rw [aluStep, s.withReg_some (regIndex_regByte ra), s.withReg_of_ge hb]

/-- On register operands only the advance check is left. -/
theorem State.aluStep_regByte (s : State) {opcode : Byte} (hn : opN opcode = 2) (ra rb : RegIdx)
    (effect : RegIdx → RegIdx → State) :
    s.aluStep opcode (regByte ra) (regByte rb) effect = s.withNextPc 2 fun next => (effect ra rb).setPc next := by
  rw [aluStep, s.withReg_some (regIndex_regByte ra), s.withReg_some (regIndex_regByte rb), hn]

theorem State.aluStep_of_le (s : State) {opcode : Byte} (hn : opN opcode = 2) (ra rb : RegIdx)
    (effect : RegIdx → RegIdx → State) (hpc : s.pc.toNat + 3 ≤ 255) :
    s.aluStep opcode (regByte ra) (regByte rb) effect = (effect ra rb).setPc (BitVec.ofNat 8 (s.pc.toNat + 3)) := by
  rw [s.aluStep_regByte hn, s.withNextPc_of_le hpc]

/-- An instruction of the ALU shape raises the shape's exceptions, whatever its effect is. -/
theorem aluExceptions_of_aluStep {mk : Byte → Byte → Instr} {opcode : Byte} (hn : opN opcode = 2)
    (hmk : ∀ a b s, ∃ effect, exec (mk a b) s = .next (s.aluStep opcode a b effect)) : AluExceptions mk := by
  refine ⟨fun a b s ha => ?badA, fun ra b s hb => ?badB, fun ra rb s hpc => ?beyond⟩
  case badA =>
    obtain ⟨effect, e⟩ := hmk a b s
    rw [e, s.aluStep_of_ge_left _ _ _ ha, State.faultedBy_eq_raise]
  case badB =>
    obtain ⟨effect, e⟩ := hmk (regByte ra) b s
    rw [e, s.aluStep_of_ge_right _ _ _ hb, State.faultedBy_eq_raise]
  case beyond =>
    obtain ⟨effect, e⟩ := hmk (regByte ra) (regByte rb) s
    have hsum : s.pc.toNat + 2 + 1 = 256 := by rw [hpc]; rfl
    rw [e, s.aluStep_regByte hn, s.withNextPc_of_gt (by omega), hsum, State.faultedBy_eq_raise]

/-! ### The effects -/

/-- The completion of a plain result: the write, then the advance (41_alu.md R106 to R108). -/
theorem State.aluStep_aluWrite (s : State) {opcode : Byte} (hn : opN opcode = 2) (ra rb : RegIdx) (f : Byte → Byte → Byte)
    (hpc : s.pc.toNat + 3 ≤ 255) :
    s.aluStep opcode (regByte ra) (regByte rb) (s.aluWrite f) =
      (s.writeReg ra (f (s.readReg ra) (s.readReg rb))).setPc (BitVec.ofNat 8 (s.pc.toNat + 3)) := by
  rw [s.aluStep_of_le hn _ _ _ hpc, aluWrite]

theorem zeroDivisor_iff (d : Byte) : zeroDivisor d = true ↔ d.toNat = 0 := by
  rw [zeroDivisor, beq_iff_eq, ← BitVec.toNat_inj]
  rfl

/-- A division's two branches, with the divisor's test on plain numbers. -/
theorem State.aluDivide_eq (s : State) (opcode a b : Byte) (f : Byte → Byte → Byte) (ra rb : RegIdx) :
    s.aluDivide opcode a b f ra rb =
      if (s.readReg rb).toNat = 0 then s.report (s.divByZeroEvent opcode a b)
      else s.writeReg ra (f (s.readReg ra) (s.readReg rb)) := by
  simp only [aluDivide, zeroDivisor_iff, aluWrite]

/-- The completion of a division: the report or the write, then the advance (41_alu.md R109, R110). -/
theorem State.aluStep_aluDivide (s : State) {opcode : Byte} (hn : opN opcode = 2) (ra rb : RegIdx) (f : Byte → Byte → Byte)
    (hpc : s.pc.toNat + 3 ≤ 255) :
    s.aluStep opcode (regByte ra) (regByte rb) (s.aluDivide opcode (regByte ra) (regByte rb) f) =
      if (s.readReg rb).toNat = 0 then
        (s.report (s.divByZeroEvent opcode (regByte ra) (regByte rb))).setPc (BitVec.ofNat 8 (s.pc.toNat + 3))
      else (s.writeReg ra (f (s.readReg ra) (s.readReg rb))).setPc (BitVec.ofNat 8 (s.pc.toNat + 3)) := by
  rw [s.aluStep_of_le hn _ _ _ hpc, aluDivide_eq, apply_ite (State.setPc · _)]

/-! ### The results, reduced as the rules write them (41_alu.md R106 to R108) -/

theorem ofNat_mod_256 (n : Nat) : BitVec.ofNat 8 (n % 256) = BitVec.ofNat 8 n :=
  BitVec.eq_of_toNat_eq (by simp)

theorem addResult_eq_mod (x y : Byte) : addResult x y = BitVec.ofNat 8 ((x.toNat + y.toNat) % 256) := (ofNat_mod_256 _).symm

theorem mulResult_eq_mod (x y : Byte) : mulResult x y = BitVec.ofNat 8 ((x.toNat * y.toNat) % 256) := (ofNat_mod_256 _).symm

/-- The integer remainder by 256 is never negative, so the difference reduced into 0..255 is a plain number. -/
theorem subResult_eq_mod (x y : Byte) :
    subResult x y = BitVec.ofNat 8 ((((x.toNat : Int) - (y.toNat : Int)) % 256).toNat) := by
  apply BitVec.eq_of_toNat_eq
  rw [subResult, BitVec.toNat_ofInt, BitVec.toNat_ofNat]
  omega

/-! ### The instructions -/

/-- Settles O19: the shape with the sum as its result. -/
theorem addInstruction : Obligations.AddInstruction := by
  refine ⟨fun ra rb s hpc => ?sum, aluExceptions_of_aluStep opN_add fun _ _ _ => ⟨_, rfl⟩, fun _ _ => rfl⟩
  case sum =>
    rw [exec, execAdd, s.aluStep_aluWrite opN_add _ _ _ hpc, addResult_eq_mod]
    rfl

/-- Settles O20: the shape with the difference as its result. -/
theorem subInstruction : Obligations.SubInstruction := by
  refine ⟨fun ra rb s hpc => ?difference, aluExceptions_of_aluStep opN_sub fun _ _ _ => ⟨_, rfl⟩, fun _ _ => rfl⟩
  case difference =>
    rw [exec, execSub, s.aluStep_aluWrite opN_sub _ _ _ hpc, subResult_eq_mod]
    rfl

/-- Settles O21: the shape with the product as its result. -/
theorem mulInstruction : Obligations.MulInstruction := by
  refine ⟨fun ra rb s hpc => ?product, aluExceptions_of_aluStep opN_mul fun _ _ _ => ⟨_, rfl⟩, fun _ _ => rfl⟩
  case product =>
    rw [exec, execMul, s.aluStep_aluWrite opN_mul _ _ _ hpc, mulResult_eq_mod]
    rfl

/-- Settles O22: a division's completion with the quotient as its result. -/
theorem divInstruction : Obligations.DivInstruction := by
  refine ⟨fun ra rb s hpc => ?quotient, aluExceptions_of_aluStep opN_div fun _ _ _ => ⟨_, rfl⟩, fun _ _ => rfl⟩
  case quotient =>
    rw [exec, execDiv, s.aluStep_aluDivide opN_div _ _ _ hpc, apply_ite Host.Outcome.next]
    rfl

/-- Settles O23: a division's completion with the remainder as its result. -/
theorem modInstruction : Obligations.ModInstruction := by
  refine ⟨fun ra rb s hpc => ?remainder, aluExceptions_of_aluStep opN_mod fun _ _ _ => ⟨_, rfl⟩, fun _ _ => rfl⟩
  case remainder =>
    rw [exec, execMod, s.aluStep_aluDivide opN_mod _ _ _ hpc, apply_ite Host.Outcome.next]
    rfl

end Sys2Proof.Machine
end

section
/-! PROOF. LDI, PRN and HALT (42_ldi_prn_halt.md R120, R122, R124): the checks of the first two, and the step that fetches a HALT. -/

namespace Sys2Proof.Machine

/-- Settles O26: the register check, then the advance check, then the write. -/
theorem ldiInstruction : Obligations.LdiInstruction := by
  refine ⟨fun ra imm s hpc => ?write, fun a imm s ha => ?badRegister, fun ra imm s hpc => ?beyond, fun _ _ => rfl⟩
  case write =>
    rw [exec, execLdi, s.withReg_some (regIndex_regByte ra), opN_ldi, s.withNextPc_of_le hpc]
    rfl
  case badRegister => rw [exec, execLdi, s.withReg_of_ge ha, State.faultedBy_eq_raise]
  case beyond =>
    have hsum : s.pc.toNat + 2 + 1 = 256 := by rw [hpc]; rfl
    rw [exec, execLdi, s.withReg_some (regIndex_regByte ra), opN_ldi, s.withNextPc_of_gt (by omega), hsum,
      State.faultedBy_eq_raise]

/-- Settles O27: the register check, then the advance check, then the byte on the output port. -/
theorem prnInstruction : Obligations.PrnInstruction := by
  refine ⟨fun ra s hpc => ?output, fun a s ha => ?badRegister, fun _ => rfl⟩
  case output =>
    rw [exec, execPrn, s.withReg_some (regIndex_regByte ra), opN_prn, s.withNextPc_of_le hpc]
    rfl
  case badRegister => rw [exec, execPrn, s.withReg_of_ge ha, State.faultedBy_eq_raise]

/-! ### What a step of a RUNNING core does, by what it fetches (40_cycle.md R86 to R90) -/

theorem step_of_window_beyond {s : State} (hrun : s.status = .running) (hpc : 255 < s.pc.toNat + 2) :
    step s = .next (s.raise .addressError (s.pc.toNat + 2)) := by
  obtain ⟨-, hf⟩ | ⟨hle, -⟩ | ⟨h, hle, -⟩ := s.fetchInstr_cases
  · rw [step_of_running hrun, hf]
  · omega
  · omega

theorem step_of_selectHandler_some {s : State} {h : Handler} (hrun : s.status = .running) (hpc : s.pc.toNat + 2 ≤ 255)
    (hs : selectHandler (s.memRead s.pc) = some h) :
    step s = exec (h (s.memRead (s.pc + 1)) (s.memRead (s.pc + 2))) s := by
  obtain ⟨hbeyond, -⟩ | ⟨-, hnone, -⟩ | ⟨h', -, hs', hf⟩ := s.fetchInstr_cases
  · omega
  · rw [hs] at hnone; cases hnone
  · obtain rfl : h = h' := Option.some.inj (hs.symm.trans hs')
    rw [step_of_running hrun, hf]

/-- A step of a RUNNING core raises a cause of the fetch, or executes an instruction whose opcode is the byte at PC. -/
theorem step_cases {s : State} (hrun : s.status = .running) :
    (∃ cause info, step s = .next (s.raise cause info)) ∨
      ∃ i : Instr, i.opcode = s.memRead s.pc ∧ step s = exec i s := by
  by_cases hpc : s.pc.toNat + 2 ≤ 255
  · cases hs : selectHandler (s.memRead s.pc) with
    | none => exact .inl ⟨_, _, step_of_selectHandler_none hrun (by omega) hs⟩
    | some h => exact .inr ⟨_, opcode_of_selectHandler hs _ _, step_of_selectHandler_some hrun hpc hs⟩
  · exact .inl ⟨_, _, step_of_window_beyond hrun (by omega)⟩

/-- Settles O28: `halt` is the handler of the byte 0x01, where its window lies in memory. -/
theorem haltInstruction : Obligations.HaltInstruction := by
  refine ⟨fun _ => rfl, fun s hrun hpc hop => ?step, fun s hrun hpc _ => ?beyond, rfl⟩
  case step =>
    have hs : selectHandler (s.memRead s.pc) = some (fun _ _ => .halt) := by rw [hop]; exact selectHandler_halt
    rw [step_of_selectHandler_some hrun (by omega) hs]
    rfl
  case beyond => rw [step_of_window_beyond hrun (by omega), State.faultedBy_eq_raise]

end Sys2Proof.Machine
end

section
/-! PROOF. `run` after a HALT (42_ldi_prn_halt.md R126). An instruction other than HALT keeps the run state or raises a cause, so a
step that ends in HALTED executed the HALT at PC, and that is what it executes again. -/

namespace Sys2Proof.Machine

/-! ### The checks keep the run state and the fault record, or raise a cause -/

theorem State.runsOnOrFaults_raise (s : State) (cause : FaultCause) (info : Nat) :
    s.runsOnOrFaults (s.raise cause info) := .inr ⟨cause, info, rfl⟩

theorem State.runsOnOrFaults_withReg {s : State} {b : Byte} {k : RegIdx → State} (hk : ∀ r, s.runsOnOrFaults (k r)) :
    s.runsOnOrFaults (s.withReg b k) := by
  obtain ⟨-, e⟩ | ⟨hb, e⟩ := s.withReg_cases b k <;> rw [e]
  · exact s.runsOnOrFaults_raise _ _
  · exact hk ⟨b.toNat, hb⟩

theorem State.runsOnOrFaults_withNextPc {s : State} {n : Nat} {k : Byte → State} (hk : ∀ next, s.runsOnOrFaults (k next)) :
    s.runsOnOrFaults (s.withNextPc n k) := by
  obtain ⟨-, e⟩ | ⟨-, e⟩ := s.withNextPc_cases n k <;> rw [e]
  · exact s.runsOnOrFaults_raise _ _
  · exact hk _

theorem State.runsOnOrFaults_withStackRoom {s t : State} (ht : s.runsOnOrFaults t) :
    s.runsOnOrFaults (s.withStackRoom t) := by
  obtain ⟨-, e⟩ | ⟨-, e⟩ := s.withStackRoom_cases t <;> rw [e]
  · exact s.runsOnOrFaults_raise _ _
  · exact ht

theorem State.runsOnOrFaults_withStackItem {s t : State} (ht : s.runsOnOrFaults t) :
    s.runsOnOrFaults (s.withStackItem t) := by
  obtain ⟨-, e⟩ | ⟨-, e⟩ := s.withStackItem_cases t <;> rw [e]
  · exact s.runsOnOrFaults_raise _ _
  · exact ht

theorem State.runsOnOrFaults_withCallRoom {s t : State} (ht : s.runsOnOrFaults t) :
    s.runsOnOrFaults (s.withCallRoom t) := by
  obtain ⟨-, -, e⟩ | ⟨-, e⟩ := s.withCallRoom_cases t <;> rw [e]
  · exact s.runsOnOrFaults_raise _ _
  · exact ht

/-- The ALU shape runs on or faults where its effect keeps the run state and the fault record. -/
theorem State.runsOnOrFaults_aluStep {s : State} {opcode a b : Byte} {effect : RegIdx → RegIdx → State}
    (heffect : ∀ ra rb, (effect ra rb).status = s.status ∧ (effect ra rb).fault = s.fault) :
    s.runsOnOrFaults (s.aluStep opcode a b effect) :=
  runsOnOrFaults_withReg fun ra => runsOnOrFaults_withReg fun rb => runsOnOrFaults_withNextPc fun _ => .inl (heffect ra rb)

theorem State.aluDivide_status_fault (s : State) (opcode a b : Byte) (f : Byte → Byte → Byte) (ra rb : RegIdx) :
    (s.aluDivide opcode a b f ra rb).status = s.status ∧ (s.aluDivide opcode a b f ra rb).fault = s.fault := by
  rw [aluDivide_eq]
  split <;> exact ⟨rfl, rfl⟩

/-! ### The instructions and the step -/

theorem exec_runsOnOrFaults {s t : State} : ∀ {i : Instr}, exec i s = .next t → i ≠ .halt → s.runsOnOrFaults t
  | .halt, _, hne => absurd rfl hne
  | .ret, rfl, _ => .inl ⟨rfl, rfl⟩
  | .push _, rfl, _ => State.runsOnOrFaults_withReg fun _ => State.runsOnOrFaults_withNextPc fun _ =>
      State.runsOnOrFaults_withStackRoom (.inl ⟨rfl, rfl⟩)
  | .pop _, rfl, _ => State.runsOnOrFaults_withReg fun _ => State.runsOnOrFaults_withNextPc fun _ =>
      State.runsOnOrFaults_withStackItem (.inl ⟨rfl, rfl⟩)
  | .call _, rfl, _ => State.runsOnOrFaults_withReg fun _ => State.runsOnOrFaults_withCallRoom (.inl ⟨rfl, rfl⟩)
  | .prn _, rfl, _ => State.runsOnOrFaults_withReg fun _ => State.runsOnOrFaults_withNextPc fun _ => .inl ⟨rfl, rfl⟩
  | .ldi _ _, rfl, _ => State.runsOnOrFaults_withReg fun _ => State.runsOnOrFaults_withNextPc fun _ => .inl ⟨rfl, rfl⟩
  | .add _ _, rfl, _ => State.runsOnOrFaults_aluStep fun _ _ => ⟨rfl, rfl⟩
  | .sub _ _, rfl, _ => State.runsOnOrFaults_aluStep fun _ _ => ⟨rfl, rfl⟩
  | .mul _ _, rfl, _ => State.runsOnOrFaults_aluStep fun _ _ => ⟨rfl, rfl⟩
  | .div _ _, rfl, _ => State.runsOnOrFaults_aluStep (s.aluDivide_status_fault _ _ _ _)
  | .mod _ _, rfl, _ => State.runsOnOrFaults_aluStep (s.aluDivide_status_fault _ _ _ _)

/-- Neither running on nor a fault leads a RUNNING core to HALTED. -/
theorem State.not_halted_of_runsOnOrFaults {s t : State} (hrun : s.status = .running) (h : s.runsOnOrFaults t) :
    t.status ≠ .halted := by
  obtain ⟨hstatus, -⟩ | ⟨cause, info, rfl⟩ := h
  · rw [hstatus, hrun]; decide
  · rw [State.faultedBy_eq_raise, State.raise_status]; decide

/-- A step that halts executed the HALT whose byte is at PC. -/
theorem eq_halt_of_step_halted {s t : State} (hrun : s.status = .running) (hstep : step s = .next t)
    (ht : t.status = .halted) : s.memRead s.pc = Opcode.halt ∧ t = s.halt := by
  obtain ⟨cause, info, e⟩ | ⟨i, hop, e⟩ := step_cases hrun
  · cases e.symm.trans hstep
    exact absurd ht (State.not_halted_of_runsOnOrFaults hrun (s.runsOnOrFaults_raise cause info))
  · have hexec : exec i s = .next t := e.symm.trans hstep
    by_cases hi : i = .halt
    · subst hi
      cases hexec
      exact ⟨hop.symm, rfl⟩
    · exact absurd ht (State.not_halted_of_runsOnOrFaults hrun (exec_runsOnOrFaults hexec hi))

/-! ### The host's `run` after it -/

/-- `run` undoes a HALT: the run state was all that it changed. -/
theorem hostCommand_run_halt {s : State} (hrun : s.status = .running) : hostCommand .run s.halt = (.accepted, s) := by
  rw [hostCommand_run_of_startable (.inr s.halt_status), State.halt, ← hrun]

/-- Settles O55: the halted state is the state before with the run state changed, so `run` leads back to that state, and the step
from it is the same step. -/
theorem runAfterHalt : Obligations.RunAfterHalt := by
  intro s t hrun hstep ht
  obtain ⟨hop, rfl⟩ := eq_halt_of_step_halted hrun hstep ht
  refine ⟨s.halt_pc, hop, ⟨s, hostCommand_run_halt hrun, hstep⟩, fun bytes => ?load⟩
  case load => exact hostCommand_load_of_not_fits fun h => by rw [State.halt_status] at h; cases h.1

end Sys2Proof.Machine
end

section
/-! PROOF. PUSH and POP (43_stack.md R131, R132): which check stops each, what each does where none does, and for POP the write of
`x[a]` before the read of x[7], which makes R7 a destination of its own kind. -/

namespace Sys2Proof.Machine

/-! ### The stack checks by the value of x[7] -/

theorem State.withStackRoom_of_le (s t : State) (h : s.sp.toNat ≤ s.params.stackMin.val) :
    s.withStackRoom t = s.raise .stackOverflow s.sp.toNat := if_pos h

theorem State.withStackItem_of_ne (s t : State) (h : s.sp ≠ Config.spReset) : s.withStackItem t = t := if_neg h

theorem State.withStackItem_of_eq (s t : State) (h : s.sp = Config.spReset) :
    s.withStackItem t = s.raise .stackUnderflow s.sp.toNat := if_pos h

/-! ### The stack pointer's arithmetic on plain numbers -/

/-- Above the bound x[7] is not 0, so the decrement does not wrap. -/
theorem State.toNat_sp_decSp_of_room {s : State} (hroom : s.params.stackMin.val < s.sp.toNat) :
    s.decSp.sp.toNat = s.sp.toNat - 1 := by
  rw [s.sp_decSp]
  bv_omega

theorem add_one_eq_mod (x : Byte) : x + 1 = BitVec.ofNat 8 ((x.toNat + 1) % 256) := by
  rw [ofNat_mod_256, BitVec.ofNat_add, BitVec.ofNat_toNat, BitVec.setWidth_eq]
  rfl

/-! ### The increment after a register write -/

/-- A write to another register leaves x[7] to be incremented. -/
theorem State.incSp_writeReg_other (s : State) {r : RegIdx} (hr : r ≠ spIdx) (v : Byte) :
    (s.writeReg r v).incSp = (s.writeReg r v).writeReg spIdx (s.sp + 1) := by
  rw [incSp, sp, s.readReg_writeReg_other v hr, sp]

/-- A write to R7 is what is incremented (43_stack.md R133). -/
theorem State.incSp_writeReg_spIdx (s : State) (v : Byte) : (s.writeReg spIdx v).incSp = s.writeReg spIdx (v + 1) := by
  rw [incSp, sp, s.readReg_writeReg_same]
  simp only [writeReg, Vector.set_set]

/-! ### PUSH -/

theorem exec_push_of_full (ra : RegIdx) {s : State} (hpc : s.pc.toNat + 2 ≤ 255)
    (hfull : s.sp.toNat ≤ s.params.stackMin.val) :
    exec (.push (regByte ra)) s = .next (s.raise .stackOverflow s.sp.toNat) := by
  rw [exec, execPush, s.withReg_some (regIndex_regByte ra), opN_push, s.withNextPc_of_le hpc, s.withStackRoom_of_le _ hfull]

/-- Settles O30: with room the push writes at an address that did not wrap, and each check that fails raises its cause. -/
theorem pushInstruction : Obligations.PushInstruction := by
  refine ⟨fun ra s hpc hroom => ?store, fun ra s hpc hfull => ?overflow, fun a s ha => ?badRegister, fun _ => rfl⟩
  case store =>
    rw [exec_push_of_room ra hpc hroom, ← State.toNat_sp_decSp_of_room hroom]
    rfl
  case overflow => rw [exec_push_of_full ra hpc hfull, State.faultedBy_eq_raise]
  case badRegister => rw [exec, execPush, s.withReg_of_ge ha, State.faultedBy_eq_raise]

/-! ### POP -/

/-- A POP that no check stops: the write of the top byte to `x[a]`, the increment, and the advance (43_stack.md R132). -/
theorem exec_pop_of_item (ra : RegIdx) {s : State} (hpc : s.pc.toNat + 2 ≤ 255) (hitem : s.sp ≠ Config.spReset) :
    exec (.pop (regByte ra)) s =
      .next ((s.writeReg ra s.stackTop).incSp.setPc (BitVec.ofNat 8 (s.pc.toNat + 2))) := by
  rw [exec, execPop, s.withReg_some (regIndex_regByte ra), opN_pop, s.withNextPc_of_le hpc, s.withStackItem_of_ne _ hitem]

theorem exec_pop_of_empty (ra : RegIdx) {s : State} (hpc : s.pc.toNat + 2 ≤ 255) (hempty : s.sp = Config.spReset) :
    exec (.pop (regByte ra)) s = .next (s.raise .stackUnderflow s.sp.toNat) := by
  rw [exec, execPop, s.withReg_some (regIndex_regByte ra), opN_pop, s.withNextPc_of_le hpc, s.withStackItem_of_eq _ hempty]

/-- Settles O31: the increment reads x[7] after the write to `x[a]`, so R7 as the destination is a case apart. -/
theorem popInstruction : Obligations.PopInstruction := by
  refine ⟨fun ra s hra hpc hitem => ?load, fun s hpc hitem => ?loadSp, fun ra s hpc hempty => ?underflow,
    fun a s ha => ?badRegister, fun _ => rfl⟩
  case load =>
    rw [exec_pop_of_item ra hpc hitem, s.incSp_writeReg_other hra, add_one_eq_mod]
    rfl
  case loadSp =>
    rw [← regByte_spIdx, exec_pop_of_item spIdx hpc hitem, s.incSp_writeReg_spIdx, add_one_eq_mod]
    rfl
  case underflow =>
    rw [exec_pop_of_empty ra hpc hempty, hempty, State.faultedBy_eq_raise]
    rfl
  case badRegister => rw [exec, execPop, s.withReg_of_ge ha, State.faultedBy_eq_raise]

end Sys2Proof.Machine
end

section
/-! PROOF. CALL and RET (44_call_ret.md R140, R143), and the law that joins them (R145): a CALL that completes is the push of its
return address, and RET pops whatever stands at x[7]. -/

namespace Sys2Proof.Machine

/-! ### CALL's bound, and its decrement and return address on plain numbers -/

theorem State.withCallRoom_of_full (s t : State) (hcheck : s.params.callChecksOverflow = true)
    (hfull : s.sp.toNat ≤ s.params.stackMin.val) : s.withCallRoom t = s.raise .stackOverflow s.sp.toNat := by
  rw [withCallRoom, if_pos hcheck, s.withStackRoom_of_le t hfull]

theorem sub_one_eq_mod (x : Byte) : x - 1 = BitVec.ofNat 8 ((x.toNat + 255) % 256) := by
  bv_omega

/-- An unchecked CALL's decrement wraps at 0 (43_stack.md R135). -/
theorem State.toNat_sp_decSp (s : State) : s.decSp.sp.toNat = (s.sp.toNat + 255) % 256 := by
  rw [s.sp_decSp]
  bv_omega

/-- Where the window of the CALL lies in memory, its return address does not wrap. -/
theorem State.toNat_returnAddress {s : State} (hpc : s.pc.toNat ≤ 253) : s.returnAddress.toNat = s.pc.toNat + 2 := by
  rw [returnAddress]
  bv_omega

theorem State.returnAddress_eq_ofNat {s : State} (hpc : s.pc.toNat ≤ 253) :
    s.returnAddress = BitVec.ofNat 8 (s.pc.toNat + 2) := by
  rw [← s.toNat_returnAddress hpc, BitVec.ofNat_toNat, BitVec.setWidth_eq]

/-! ### CALL -/

theorem exec_call_of_full (ra : RegIdx) {s : State} (hcheck : s.params.callChecksOverflow = true)
    (hfull : s.sp.toNat ≤ s.params.stackMin.val) :
    exec (.call (regByte ra)) s = .next (s.raise .stackOverflow s.sp.toNat) := by
  rw [exec, execCall, s.withReg_some (regIndex_regByte ra), s.withCallRoom_of_full _ hcheck hfull]

/-- What the push of CALL leaves, with its decrement and its return address on plain numbers. -/
theorem State.pushByte_returnAddress_eq {s : State} (hpc : s.pc.toNat ≤ 253) :
    s.pushByte s.returnAddress = { s with
      regs := s.regs.set 7 (BitVec.ofNat 8 ((s.sp.toNat + 255) % 256))
      mem := Memory.write s.mem ((s.sp.toNat + 255) % 256) (BitVec.ofNat 8 (s.pc.toNat + 2)) } := by
  rw [← sub_one_eq_mod, ← s.toNat_sp_decSp, ← s.returnAddress_eq_ofNat hpc]
  rfl

/-- Settles O36: with room the result is the push of the return address at the target, and each check that fails raises its cause. -/
theorem callInstruction : Obligations.CallInstruction := by
  refine ⟨fun ra s hpc hroom => ?store, fun ra s hcheck hfull => ?overflow, fun a s ha => ?badRegister, fun _ => rfl⟩
  case store =>
    rw [exec_call_of_room ra hroom, s.pushByte_returnAddress_eq hpc]
    rfl
  case overflow => rw [exec_call_of_full ra hcheck hfull, State.faultedBy_eq_raise]
  case badRegister => rw [exec, execCall, s.withReg_of_ge ha, State.faultedBy_eq_raise]

/-! ### RET -/

theorem exec_ret (s : State) : exec .ret s = .next (s.incSp.setPc s.stackTop) := rfl

/-- Settles O38: RET makes no check, so it is the increment and the jump to the top byte. -/
theorem retInstruction : Obligations.RetInstruction := by
  refine ⟨fun s => ?pop, rfl⟩
  case pop =>
    rw [exec_ret, ← add_one_eq_mod]
    rfl

/-! ### The call-return law -/

/-- A CALL that completes has pushed its return address and set only PC besides, whatever its operand. -/
theorem exec_call_completes {a : Byte} {s t : State} (hexec : exec (.call a) s = .next t) (ht : t.status ≠ .faulted) :
    ∃ target, t = (s.pushByte s.returnAddress).setPc target := by
  rw [exec, execCall] at hexec
  injection hexec with hexec
  subst hexec
  obtain ⟨-, e⟩ | ⟨ha, e⟩ := s.withReg_cases a fun ra =>
    s.withCallRoom ((s.pushByte s.returnAddress).setPc ((s.pushByte s.returnAddress).readReg ra))
  · rw [e] at ht
    exact absurd (s.raise_status _ _) ht
  · obtain ⟨-, -, e'⟩ | ⟨-, e'⟩ := s.withCallRoom_cases
      ((s.pushByte s.returnAddress).setPc ((s.pushByte s.returnAddress).readReg ⟨a.toNat, ha⟩))
    · rw [e, e'] at ht
      exact absurd (s.raise_status _ _) ht
    · exact ⟨_, e.trans e'⟩

/-- Settles O39: the CALL's push left its return address at x[7] - 1, which is all that the RET reads, and the RET's increment
undoes the push's decrement. -/
theorem callReturnLaw : Obligations.CallReturnLaw := by
  intro a s t u hpc hexec ht husp hucell
  obtain ⟨target, e⟩ := exec_call_completes hexec ht
  have hsp : t.sp = s.sp - 1 := by rw [e, State.sp_setPc, State.sp_pushByte]
  have hslot : t.memRead t.sp = s.returnAddress := by rw [hsp, e, State.memRead_setPc, State.memRead_pushByte_same]
  refine ⟨?slot, _, exec_ret u, ?returned, ?restored⟩
  case slot => rw [hslot, State.toNat_returnAddress hpc]
  case returned => rw [State.setPc_pc, State.stackTop, hucell, hslot, State.toNat_returnAddress hpc]
  case restored => rw [State.sp_setPc, State.sp_incSp, husp, hsp, BitVec.sub_add_cancel]

end Sys2Proof.Machine
end

section
/-! PROOF. The values reset leaves (70_reset_and_hazards.md R175). The machine right after reset and the state the host's reset leaves
are both constructions, so each value is shown once, of a construction at any parameters. -/

namespace Sys2Proof.Machine

theorem State.construct_readReg (p : Params) (r : RegIdx) : (State.construct p).readReg r = if r = 7 then 0xF4 else 0 := by
  fin_cases r <;> rfl

theorem State.construct_memRead (p : Params) (addr : Byte) : (State.construct p).memRead addr = 0 := rfl

theorem hostCommand_reset (s : State) : hostCommand .reset s = (.accepted, State.construct s.params) := rfl

theorem State.exists_eq_construct_of_reset {t : State}
    (ht : t = State.reset ∨ ∃ s, hostCommand .reset s = (.accepted, t)) : ∃ p, t = State.construct p := by
  obtain rfl | ⟨s, hs⟩ := ht
  · exact ⟨Params.default, rfl⟩
  · rw [hostCommand_reset] at hs
    exact ⟨s.params, (Prod.mk.inj hs).2.symm⟩

/-- The table's keys are the bytes of the opcode map of 30_encoding.md R72. -/
theorem dispatchTable_keys : dispatchTable.map Prod.fst =
    [0x01#8, 0x11#8, 0x45#8, 0x46#8, 0x47#8, 0x50#8, 0x82#8, 0xA0#8, 0xA1#8, 0xA2#8, 0xA3#8, 0xA4#8] := rfl

/-- Settles O50: a reset state is a construction, whose fields have the values of R41, and the table's keys are the map's bytes. -/
theorem resetValues : Obligations.ResetValues := by
  refine ⟨fun t ht => ?values, fun s => ?accepted, fun op => ?tableBytes⟩
  case values =>
    obtain ⟨p, rfl⟩ := State.exists_eq_construct_of_reset ht
    exact ⟨State.construct_readReg p, rfl, State.construct_memRead p, rfl, rfl, rfl, rfl⟩
  case accepted => rw [hostCommand_reset]
  case tableBytes => rw [dispatchTable_keys]

end Sys2Proof.Machine
end

section
/-! PROOF. The decoder and the encoder are inverse (30_encoding.md R65, R68). The opcode byte fixes how many operand bytes follow it,
and those are the operands, a first. -/

namespace Sys2Proof

/-! ### The bytes of an instruction -/

theorem Instr.opN_opcode (i : Instr) : opN i.opcode = i.operands.length := by
  obtain ⟨-, hlen, -⟩ := i.encodedForm
  rw [encode, List.length_cons] at hlen
  omega

/-- A selected handler uses as many of the two latched operand bytes as its opcode byte counts (30_encoding.md R69). -/
theorem operands_of_selectHandler {op : Byte} {h : Handler} (hs : selectHandler op = some h) (a b : Byte) :
    (h a b).operands = [a, b].take (opN op) := by
  obtain ⟨rfl, rfl⟩ | ⟨rfl, rfl⟩ | ⟨rfl, rfl⟩ | ⟨rfl, rfl⟩ | ⟨rfl, rfl⟩ | ⟨rfl, rfl⟩ | ⟨rfl, rfl⟩ | ⟨rfl, rfl⟩ | ⟨rfl, rfl⟩ |
    ⟨rfl, rfl⟩ | ⟨rfl, rfl⟩ | ⟨rfl, rfl⟩ := selectHandler_cases hs <;> rfl

/-! ### The decoder on a window -/

theorem opcode_of_decodeWindow {op a b : Byte} {i : Instr} (hd : decodeWindow op a b = .ok i) : i.opcode = op := by
  obtain ⟨h, hs, rfl⟩ := selectHandler_of_decodeWindow_ok hd
  exact opcode_of_selectHandler hs a b

theorem operands_of_decodeWindow {op a b : Byte} {i : Instr} (hd : decodeWindow op a b = .ok i) :
    i.operands = [a, b].take (opN op) := by
  obtain ⟨h, hs, rfl⟩ := selectHandler_of_decodeWindow_ok hd
  exact operands_of_selectHandler hs a b

theorem decodeWindow_of_selectHandler_some {op : Byte} {h : Handler} (hs : selectHandler op = some h) (a b : Byte) :
    decodeWindow op a b = .ok (h a b) := by
  rw [decodeWindow, hs]

/-- The handler of an instruction's opcode byte makes it from its operand bytes, whatever fills the rest of the window. -/
theorem Instr.selectHandler_opcode (rest : List Byte) : ∀ i : Instr, ∃ h, selectHandler i.opcode = some h ∧
    h ((i.operands ++ rest).getD 0 0) ((i.operands ++ rest).getD 1 0) = i
  | .halt => ⟨_, selectHandler_halt, rfl⟩
  | .ret => ⟨_, selectHandler_ret, rfl⟩
  | .push _ => ⟨_, selectHandler_push, rfl⟩
  | .pop _ => ⟨_, selectHandler_pop, rfl⟩
  | .prn _ => ⟨_, selectHandler_prn, rfl⟩
  | .call _ => ⟨_, selectHandler_call, rfl⟩
  | .ldi _ _ => ⟨_, selectHandler_ldi, rfl⟩
  | .add _ _ => ⟨_, selectHandler_add, rfl⟩
  | .sub _ _ => ⟨_, selectHandler_sub, rfl⟩
  | .mul _ _ => ⟨_, selectHandler_mul, rfl⟩
  | .div _ _ => ⟨_, selectHandler_div, rfl⟩
  | .mod _ _ => ⟨_, selectHandler_mod, rfl⟩

theorem decodeWindow_operands_append (i : Instr) (rest : List Byte) :
    decodeWindow i.opcode ((i.operands ++ rest).getD 0 0) ((i.operands ++ rest).getD 1 0) = .ok i := by
  obtain ⟨h, hs, hi⟩ := i.selectHandler_opcode rest
  rw [decodeWindow_of_selectHandler_some hs, hi]

/-! ### The decoder on a byte sequence -/

theorem decode_cons_of_window {op : Byte} {tail : List Byte} {i : Instr}
    (hw : decodeWindow op (tail.getD 0 0) (tail.getD 1 0) = .ok i) (hn : opN op ≤ tail.length) :
    decode (op :: tail) = .ok (i, tail.drop (opN op)) := by
  simp only [decode, hw, hn, if_true]

/-- The first bytes of a sequence, read one by one as a window reads them. -/
theorem take_pair_getD {n : Nat} (hn : n ≤ 2) {tail : List Byte} (hlen : n ≤ tail.length) :
    [tail.getD 0 0, tail.getD 1 0].take n = tail.take n := by
  match n, tail with
  | 0, _ => rfl
  | 1, _ :: _ => rfl
  | 2, _ :: _ :: _ => rfl

/-- Settles O1: the window reads the operand bytes, and what the decoder drops after the opcode byte is as many bytes. -/
theorem decodeOfEncode : Obligations.DecodeOfEncode := by
  intro i rest
  have hlen : opN i.opcode ≤ (i.operands ++ rest).length := by rw [i.opN_opcode, List.length_append]; omega
  calc decode (encode i ++ rest)
      = .ok (i, (i.operands ++ rest).drop (opN i.opcode)) :=
        decode_cons_of_window (decodeWindow_operands_append i rest) hlen
    _ = .ok (i, rest) := by rw [i.opN_opcode, List.drop_left]

/-- An instruction is its bytes, since they decode to it. -/
theorem encode_injective {i j : Instr} (h : encode i = encode j) : i = j := by
  have hi := decodeOfEncode i []
  rw [h, decodeOfEncode j []] at hi
  cases hi
  rfl

/-- Settles O2: the opcode byte is the instruction's, its operands are the bytes taken after it, and the rest is what is dropped. -/
theorem encodeOfDecode : Obligations.EncodeOfDecode := by
  intro bytes rest i hd
  obtain ⟨op, tail, rfl, hw, hlen, rfl⟩ := decode_ok_cases hd
  have hop : i.opcode = op := opcode_of_decodeWindow hw
  have hn : opN op ≤ 2 := hop ▸ i.opN_opcode_le_two
  have hargs : i.operands = tail.take (opN op) := by rw [operands_of_decodeWindow hw, take_pair_getD hn hlen]
  rw [encode, hop, hargs, List.cons_append, List.take_append_drop]

/-! ### Which opcode bytes are instructions, and what they read of the window -/

theorem selectHandler_isSome_of_mem : ∀ op ∈ dispatchTable.map Prod.fst, (selectHandler op).isSome = true := by decide

/-- Settles O3: the twelve bytes are the dispatch table's, each of which selects a handler, and no other byte selects one. -/
theorem twelveOpcodesRecognised : Obligations.TwelveOpcodesRecognised := by
  intro op a b
  rw [← Machine.dispatchTable_keys]
  refine ⟨fun hmem => ?recognised, fun hnot => ?rejected⟩
  case recognised =>
    obtain ⟨h, hs⟩ := Option.isSome_iff_exists.1 (selectHandler_isSome_of_mem op hmem)
    exact ⟨h a b, decodeWindow_of_selectHandler_some hs a b, opcode_of_selectHandler hs a b⟩
  case rejected =>
    exact decodeWindow_of_selectHandler_none (Machine.selectHandler_of_not_mem_dispatchTable hnot) a b

/-- Two windows that agree on their first n operand bytes have the same first n operand bytes. -/
theorem take_pair_congr {n : Nat} (hn : n ≤ 2) {a b a' b' : Byte} (ha : 1 ≤ n → a = a') (hb : 2 ≤ n → b = b') :
    [a, b].take n = [a', b'].take n := by
  match n with
  | 0 => rfl
  | 1 => rw [ha le_rfl]; rfl
  | 2 => rw [ha one_le_two, hb le_rfl]

/-- Settles O8: the opcode byte selects the handler, and the instruction it makes has the byte as its opcode and the counted bytes as
its operands. -/
theorem unusedWindowBytesIgnored : Obligations.UnusedWindowBytesIgnored := by
  intro op a b a' b' ha hb
  cases hs : selectHandler op with
  | none => rw [decodeWindow_of_selectHandler_none hs, decodeWindow_of_selectHandler_none hs]
  | some h =>
    have hbytes : encode (h a b) = encode (h a' b') := by
      rw [encode, encode, opcode_of_selectHandler hs, opcode_of_selectHandler hs, operands_of_selectHandler hs,
        operands_of_selectHandler hs, take_pair_congr (opN_le_two_of_selectHandler hs) ha hb]
    rw [decodeWindow_of_selectHandler_some hs, decodeWindow_of_selectHandler_some hs, encode_injective hbytes]

/-! ### The opcode map's fields and sample words -/

/-- Settles O5: the fields of the twelve bytes, each computed from its byte. -/
theorem opcodeFieldsOfTable : Obligations.OpcodeFieldsOfTable := by
  intro i
  cases i <;> simp only [Instr.opcode] <;> decide

/-- Settles O6: each word is the encoding of its instruction. -/
theorem sampleWordsDecode : Obligations.SampleWordsDecode :=
  ⟨decodeOfEncode (.ldi 0 8) [], decodeOfEncode (.prn 0) [], decodeOfEncode .halt [], decodeOfEncode (.mul 0 1) [],
    decodeOfEncode (.mod 0 1) [], decodeOfEncode (.push 0) [], decodeOfEncode (.pop 1) [], decodeOfEncode (.call 1) [],
    decodeOfEncode .ret []⟩

end Sys2Proof
end

section
/-! PROOF. The two checks before any effect: the first operand byte that names no register (40_cycle.md R91), and the advance
(40_cycle.md R92). -/

namespace Sys2Proof.Machine

/-! ### The register-index check (40_cycle.md R91) -/

theorem exec_of_bad_left {i : Instr} {a : Byte} {l : List Byte} (hregs : i.regOperands = a :: l) (ha : 8 ≤ a.toNat) (s : State) :
    exec i s = .next (s.raise .registerIndexError a.toNat) := by
  cases i <;> cases hregs <;> exact congrArg Host.Outcome.next (s.withReg_of_ge ha _)

/-- The two-register instructions are the five of the ALU shape. -/
theorem exec_eq_aluStep_of_two_registers {i : Instr} {a b : Byte} {l : List Byte} (hregs : i.regOperands = a :: b :: l) (s : State) :
    ∃ opcode effect, exec i s = .next (s.aluStep opcode a b effect) := by
  cases i <;> cases hregs <;> exact ⟨_, _, rfl⟩

theorem length_regOperands_le (i : Instr) : i.regOperands.length ≤ 2 := by
  cases i <;> simp [Instr.regOperands]

/-- A byte below 8 is a register's operand byte. -/
theorem exists_regByte_of_lt {a : Byte} (ha : a.toNat < 8) : ∃ r, regByte r = a := ⟨_, (regByte_eq_iff ha _).2 rfl⟩

theorem exec_of_first_bad_register {i : Instr} {b : Byte} (hbad : i.regOperands.find? (fun r => decide (8 ≤ r.toNat)) = some b)
    (s : State) : exec i s = .next (s.raise .registerIndexError b.toNat) := by
  obtain ⟨hb, before, after, hregs, hbefore⟩ := List.find?_eq_some_iff_append.1 hbad
  have hb : 8 ≤ b.toNat := of_decide_eq_true hb
  match before with
  | [] => exact exec_of_bad_left hregs hb s
  | [a] =>
    obtain ⟨ra, rfl⟩ : ∃ ra, regByte ra = a := exists_regByte_of_lt (by simpa using hbefore a)
    obtain ⟨opcode, effect, e⟩ := exec_eq_aluStep_of_two_registers hregs s
    rw [e, s.aluStep_of_ge_right _ _ _ hb]
  | _ :: _ :: _ =>
    have hlen := length_regOperands_le i
    rw [hregs] at hlen
    simp at hlen

/-- Settles O40: the first bad operand is a, or it is b after a good a; the only instructions with a b are the five of the ALU shape. -/
theorem firstBadRegisterFaults : Obligations.FirstBadRegisterFaults :=
  fun _ s _ hbad => exec_of_first_bad_register hbad s

/-! ### The advance check (40_cycle.md R92) -/

theorem isRegIndex_iff (b : Byte) : isRegIndex b = true ↔ b.toNat < 8 := decide_eq_true_iff

/-- Where no operand byte is the first bad one, all of them name registers. -/
theorem wellFormed_of_no_bad_register {i : Instr} (hgood : i.regOperands.find? (fun r => decide (8 ≤ r.toNat)) = none) :
    i.wellFormed = true := by
  rw [Instr.wellFormed, List.all_eq_true]
  intro r hr
  have := List.find?_eq_none.1 hgood r hr
  rw [isRegIndex_iff]
  simpa using this

/-- The operand of a well-formed one-register instruction is a register's byte. -/
theorem exists_regByte_of_wellFormed {i : Instr} {a : Byte} (hregs : i.regOperands = [a]) (hwf : i.wellFormed = true) :
    ∃ ra, regByte ra = a := by
  rw [Instr.wellFormed, hregs, List.all_cons, Bool.and_eq_true, isRegIndex_iff] at hwf
  exact exists_regByte_of_lt hwf.1

/-- The operands of a well-formed two-register instruction are registers' bytes. -/
theorem exists_regByte_pair_of_wellFormed {i : Instr} {a b : Byte} (hregs : i.regOperands = [a, b]) (hwf : i.wellFormed = true) :
    ∃ ra rb, regByte ra = a ∧ regByte rb = b := by
  rw [Instr.wellFormed, hregs, List.all_cons, List.all_cons, Bool.and_eq_true, Bool.and_eq_true, isRegIndex_iff,
    isRegIndex_iff] at hwf
  obtain ⟨ha, hb, -⟩ := hwf
  obtain ⟨ra, hra⟩ := exists_regByte_of_lt ha
  obtain ⟨rb, hrb⟩ := exists_regByte_of_lt hb
  exact ⟨ra, rb, hra, hrb⟩

/-- The check of a one-register instruction on a register operand: only the advance check is left. -/
theorem State.withReg_withNextPc_of_gt (s : State) (ra : RegIdx) {n : Nat} (h : 255 < s.pc.toNat + n + 1)
    (k : RegIdx → Byte → State) :
    (s.withReg (regByte ra) fun r => s.withNextPc n (k r)) = s.raise .addressError (s.pc.toNat + n + 1) := by
  rw [s.withReg_some (regIndex_regByte ra), s.withNextPc_of_gt h]

theorem State.aluStep_of_gt (s : State) {opcode : Byte} (ra rb : RegIdx) (h : 255 < s.pc.toNat + opN opcode + 1)
    (effect : RegIdx → RegIdx → State) :
    s.aluStep opcode (regByte ra) (regByte rb) effect = s.raise .addressError (s.pc.toNat + opN opcode + 1) := by
  rw [aluStep, s.withReg_some (regIndex_regByte ra), s.withReg_some (regIndex_regByte rb), s.withNextPc_of_gt h]

theorem exec_of_advance_beyond {i : Instr} {s : State} (hwf : i.wellFormed = true) (hne : i ≠ .halt)
    (hseq : opSetsPc i.opcode = false) (hpc : 255 < s.pc.toNat + opN i.opcode + 1) :
    exec i s = .next (s.raise .addressError (s.pc.toNat + opN i.opcode + 1)) := by
  cases i with
  | halt => exact absurd rfl hne
  | ret => cases opSetsPc_ret.symm.trans hseq
  | call a => cases opSetsPc_call.symm.trans hseq
  | push a | pop a | prn a | ldi a imm =>
    obtain ⟨ra, rfl⟩ := exists_regByte_of_wellFormed rfl hwf
    exact congrArg Host.Outcome.next (s.withReg_withNextPc_of_gt ra hpc _)
  | add a b | sub a b | mul a b | div a b | mod a b =>
    obtain ⟨ra, rb, rfl, rfl⟩ := exists_regByte_pair_of_wellFormed rfl hwf
    exact congrArg Host.Outcome.next (s.aluStep_of_gt ra rb hpc _)

/-- Settles O41: on register operands the advance check is the first that can fail. -/
theorem advanceBeyondMemoryFaults : Obligations.AdvanceBeyondMemoryFaults :=
  fun _ _ hwf hne hseq hpc => exec_of_advance_beyond hwf hne hseq hpc

end Sys2Proof.Machine
end

section
/-! PROOF. What an execution can do, said once: `exec` raises a cause whose info fits the instruction, or completes by the one rule of
the instruction. The frames, the whole-machine rules, the invariant and the LIFO law are read off the rules. -/

namespace Sys2Proof.Machine

/-! ### The outcomes -/

/-- The info of a cause that an instruction raises in a state (60_exceptions.md R151): the first bad operand byte, the address that the
advance would reach, or x[7]. No instruction raises DecodeError. -/
def State.Raises (s : State) (i : Instr) : FaultCause → Nat → Prop
  | .decodeError, _ => False
  | .stackOverflow, info => info = s.sp.toNat
  | .stackUnderflow, info => info = s.sp.toNat
  | .addressError, info => info = s.pc.toNat + opN i.opcode + 1 ∧ 255 < info
  | .registerIndexError, info => ∃ b, i.regOperands.find? (fun r => decide (8 ≤ r.toNat)) = some b ∧ info = b.toNat

/-- The rules of the instructions that complete: one for each instruction, and two for a division (41_alu.md R106 to R110,
42_ldi_prn_halt.md R120 to R124, 43_stack.md R131 and R132, 44_call_ret.md R140 and R143). -/
inductive Completes (s : State) : Instr → State → Prop
  | halt : Completes s .halt s.halt
  | ret : Completes s .ret (s.incSp.setPc s.stackTop)
  | push (ra : RegIdx) {next : Byte} (hroom : s.params.stackMin.val < s.sp.toNat) (hnext : next.toNat = s.pc.toNat + 2) :
      Completes s (.push (regByte ra)) ((s.pushByte (s.decSp.readReg ra)).setPc next)
  | pop (ra : RegIdx) {next : Byte} (hnext : next.toNat = s.pc.toNat + 2) :
      Completes s (.pop (regByte ra)) ((s.writeReg ra s.stackTop).incSp.setPc next)
  | prn (ra : RegIdx) {next : Byte} (hnext : next.toNat = s.pc.toNat + 2) :
      Completes s (.prn (regByte ra)) ((s.emit (s.readReg ra)).setPc next)
  | call (ra : RegIdx) :
      Completes s (.call (regByte ra)) ((s.pushByte s.returnAddress).setPc ((s.pushByte s.returnAddress).readReg ra))
  | ldi (ra : RegIdx) (imm : Byte) {next : Byte} (hnext : next.toNat = s.pc.toNat + 3) :
      Completes s (.ldi (regByte ra) imm) ((s.writeReg ra imm).setPc next)
  | add (ra rb : RegIdx) {next : Byte} (hnext : next.toNat = s.pc.toNat + 3) :
      Completes s (.add (regByte ra) (regByte rb)) ((s.aluWrite addResult ra rb).setPc next)
  | sub (ra rb : RegIdx) {next : Byte} (hnext : next.toNat = s.pc.toNat + 3) :
      Completes s (.sub (regByte ra) (regByte rb)) ((s.aluWrite subResult ra rb).setPc next)
  | mul (ra rb : RegIdx) {next : Byte} (hnext : next.toNat = s.pc.toNat + 3) :
      Completes s (.mul (regByte ra) (regByte rb)) ((s.aluWrite mulResult ra rb).setPc next)
  | div (ra rb : RegIdx) {next : Byte} (hnext : next.toNat = s.pc.toNat + 3) :
      Completes s (.div (regByte ra) (regByte rb)) ((s.aluWrite divResult ra rb).setPc next)
  | divZero (ra rb : RegIdx) {next : Byte} (hzero : s.readReg rb = 0) (hnext : next.toNat = s.pc.toNat + 3) :
      Completes s (.div (regByte ra) (regByte rb))
        ((s.report (s.divByZeroEvent Opcode.div (regByte ra) (regByte rb))).setPc next)
  | mod (ra rb : RegIdx) {next : Byte} (hnext : next.toNat = s.pc.toNat + 3) :
      Completes s (.mod (regByte ra) (regByte rb)) ((s.aluWrite modResult ra rb).setPc next)
  | modZero (ra rb : RegIdx) {next : Byte} (hzero : s.readReg rb = 0) (hnext : next.toNat = s.pc.toNat + 3) :
      Completes s (.mod (regByte ra) (regByte rb))
        ((s.report (s.divByZeroEvent Opcode.mod (regByte ra) (regByte rb))).setPc next)

/-! ### `exec` has no other outcome -/

theorem toNat_ofNat_of_le {n : Nat} (h : n ≤ 255) : (BitVec.ofNat 8 n).toNat = n := by
  rw [BitVec.toNat_ofNat, Nat.mod_eq_of_lt (by omega)]

/-- On a register operand, where the advance stays in memory, a one-register instruction goes on. -/
theorem State.withReg_withNextPc_of_le (s : State) (ra : RegIdx) {n : Nat} (h : s.pc.toNat + n + 1 ≤ 255)
    (k : RegIdx → Byte → State) :
    (s.withReg (regByte ra) fun r => s.withNextPc n (k r)) = k ra (BitVec.ofNat 8 (s.pc.toNat + n + 1)) := by
  rw [s.withReg_some (regIndex_regByte ra), s.withNextPc_of_le h]

/-- A division is the report of its zero divisor, or the write of its result. -/
theorem State.aluDivide_cases (s : State) (opcode a b : Byte) (f : Byte → Byte → Byte) (ra rb : RegIdx) :
    (s.readReg rb = 0 ∧ s.aluDivide opcode a b f ra rb = s.report (s.divByZeroEvent opcode a b)) ∨
      s.aluDivide opcode a b f ra rb = s.aluWrite f ra rb := by
  by_cases hzero : zeroDivisor (s.readReg rb) = true
  · exact .inl ⟨beq_iff_eq.1 hzero, if_pos hzero⟩
  · exact .inr (if_neg hzero)

/-- The outcome of an instruction of the ALU shape where no check raises. -/
theorem eq_setPc_of_aluStep {s t : State} {opcode : Byte} {ra rb : RegIdx} {effect : RegIdx → RegIdx → State}
    (hn : opN opcode = 2) (hpc : s.pc.toNat + 3 ≤ 255)
    (hexec : Host.Outcome.next (s.aluStep opcode (regByte ra) (regByte rb) effect) =
      (.next t : Host.Outcome State Fault Refusal)) :
    t = (effect ra rb).setPc (BitVec.ofNat 8 (s.pc.toNat + 3)) := by
  rw [s.aluStep_of_le hn ra rb effect hpc] at hexec
  exact (Host.Outcome.next.inj hexec).symm

/-- With the register-index check and the advance check passed, only a stack test can still raise. -/
theorem exec_cases_of_checked {i : Instr} {s t : State} (hwf : i.wellFormed = true)
    (hadv : ∀ {n}, i ≠ .halt → opSetsPc i.opcode = false → opN i.opcode = n → s.pc.toNat + n + 1 ≤ 255) (hexec : exec i s = .next t) :
    (∃ cause info, s.Raises i cause info ∧ t = s.raise cause info) ∨ Completes s i t := by
  cases i with
  | halt => cases hexec; exact .inr .halt
  | ret => cases hexec; exact .inr .ret
  | push a =>
    obtain ⟨ra, rfl⟩ := exists_regByte_of_wellFormed rfl hwf
    have hpc : s.pc.toNat + 2 ≤ 255 := hadv nofun opSetsPc_push opN_push
    obtain hroom | hfull := Nat.lt_or_ge s.params.stackMin.val s.sp.toNat
    · cases hexec.symm.trans (exec_push_of_room ra hpc hroom)
      exact .inr (.push ra hroom (toNat_ofNat_of_le hpc))
    · cases hexec.symm.trans (exec_push_of_full ra hpc hfull)
      exact .inl ⟨.stackOverflow, _, rfl, rfl⟩
  | pop a =>
    obtain ⟨ra, rfl⟩ := exists_regByte_of_wellFormed rfl hwf
    have hpc : s.pc.toNat + 2 ≤ 255 := hadv nofun opSetsPc_pop opN_pop
    by_cases hempty : s.sp = Config.spReset
    · cases hexec.symm.trans (exec_pop_of_empty ra hpc hempty)
      exact .inl ⟨.stackUnderflow, _, rfl, rfl⟩
    · cases hexec.symm.trans (exec_pop_of_item ra hpc hempty)
      exact .inr (.pop ra (toNat_ofNat_of_le hpc))
  | call a =>
    obtain ⟨ra, rfl⟩ := exists_regByte_of_wellFormed rfl hwf
    by_cases hfull : s.params.callChecksOverflow = true ∧ s.sp.toNat ≤ s.params.stackMin.val
    · cases hexec.symm.trans (exec_call_of_full ra hfull.1 hfull.2)
      exact .inl ⟨.stackOverflow, _, rfl, rfl⟩
    · cases hexec.symm.trans (exec_call_of_room ra hfull)
      exact .inr (.call ra)
  | prn a =>
    obtain ⟨ra, rfl⟩ := exists_regByte_of_wellFormed rfl hwf
    have hpc : s.pc.toNat + 2 ≤ 255 := hadv nofun opSetsPc_prn opN_prn
    rw [exec, execPrn, opN_prn, s.withReg_withNextPc_of_le ra hpc] at hexec
    cases hexec
    exact .inr (.prn ra (toNat_ofNat_of_le hpc))
  | ldi a imm =>
    obtain ⟨ra, rfl⟩ := exists_regByte_of_wellFormed rfl hwf
    have hpc : s.pc.toNat + 3 ≤ 255 := hadv nofun opSetsPc_ldi opN_ldi
    rw [exec, execLdi, opN_ldi, s.withReg_withNextPc_of_le ra hpc] at hexec
    cases hexec
    exact .inr (.ldi ra imm (toNat_ofNat_of_le hpc))
  | add a b =>
    obtain ⟨ra, rb, rfl, rfl⟩ := exists_regByte_pair_of_wellFormed rfl hwf
    have hpc : s.pc.toNat + 3 ≤ 255 := hadv nofun opSetsPc_add opN_add
    exact .inr (eq_setPc_of_aluStep opN_add hpc hexec ▸ .add ra rb (toNat_ofNat_of_le hpc))
  | sub a b =>
    obtain ⟨ra, rb, rfl, rfl⟩ := exists_regByte_pair_of_wellFormed rfl hwf
    have hpc : s.pc.toNat + 3 ≤ 255 := hadv nofun opSetsPc_sub opN_sub
    exact .inr (eq_setPc_of_aluStep opN_sub hpc hexec ▸ .sub ra rb (toNat_ofNat_of_le hpc))
  | mul a b =>
    obtain ⟨ra, rb, rfl, rfl⟩ := exists_regByte_pair_of_wellFormed rfl hwf
    have hpc : s.pc.toNat + 3 ≤ 255 := hadv nofun opSetsPc_mul opN_mul
    exact .inr (eq_setPc_of_aluStep opN_mul hpc hexec ▸ .mul ra rb (toNat_ofNat_of_le hpc))
  | div a b =>
    obtain ⟨ra, rb, rfl, rfl⟩ := exists_regByte_pair_of_wellFormed rfl hwf
    have hpc : s.pc.toNat + 3 ≤ 255 := hadv nofun opSetsPc_div opN_div
    obtain rfl := eq_setPc_of_aluStep opN_div hpc hexec
    obtain ⟨hzero, e⟩ | e := s.aluDivide_cases Opcode.div (regByte ra) (regByte rb) divResult ra rb <;> rw [e]
    · exact .inr (.divZero ra rb hzero (toNat_ofNat_of_le hpc))
    · exact .inr (.div ra rb (toNat_ofNat_of_le hpc))
  | mod a b =>
    obtain ⟨ra, rb, rfl, rfl⟩ := exists_regByte_pair_of_wellFormed rfl hwf
    have hpc : s.pc.toNat + 3 ≤ 255 := hadv nofun opSetsPc_mod opN_mod
    obtain rfl := eq_setPc_of_aluStep opN_mod hpc hexec
    obtain ⟨hzero, e⟩ | e := s.aluDivide_cases Opcode.mod (regByte ra) (regByte rb) modResult ra rb <;> rw [e]
    · exact .inr (.modZero ra rb hzero (toNat_ofNat_of_le hpc))
    · exact .inr (.mod ra rb (toNat_ofNat_of_le hpc))

/-- An execution raises a cause with a fitting info, or completes by the instruction's rule. -/
theorem exec_cases {i : Instr} {s t : State} (hexec : exec i s = .next t) :
    (∃ cause info, s.Raises i cause info ∧ t = s.raise cause info) ∨ Completes s i t := by
  cases hbad : i.regOperands.find? (fun r => decide (8 ≤ r.toNat)) with
  | some b =>
    cases hexec.symm.trans (exec_of_first_bad_register hbad s)
    exact .inl ⟨.registerIndexError, _, ⟨b, hbad, rfl⟩, rfl⟩
  | none =>
    have hwf := wellFormed_of_no_bad_register hbad
    by_cases hbeyond : (i ≠ .halt ∧ opSetsPc i.opcode = false) ∧ 255 < s.pc.toNat + opN i.opcode + 1
    · obtain ⟨⟨hne, hseq⟩, hpc⟩ := hbeyond
      cases hexec.symm.trans (exec_of_advance_beyond hwf hne hseq hpc)
      exact .inl ⟨.addressError, _, ⟨rfl, hpc⟩, rfl⟩
    · exact exec_cases_of_checked hwf
        (fun hne hseq hn => hn ▸ Nat.le_of_not_lt fun hpc => hbeyond ⟨⟨hne, hseq⟩, hpc⟩) hexec

/-! ### What every rule keeps, and what only some rules change -/

variable {i : Instr} {s t : State}

theorem Completes.params_eq (h : Completes s i t) : t.params = s.params := by
  cases h <;> rfl

theorem Completes.fault_eq (h : Completes s i t) : t.fault = s.fault := by
  cases h <;> rfl

/-- HALT alone changes the run state. -/
theorem Completes.status_eq (h : Completes s i t) : t.status = if i = .halt then .halted else s.status := by
  cases h <;> rfl

/-- PRN alone emits, and it emits its register (42_ldi_prn_halt.md R122). -/
theorem Completes.out_cases (h : Completes s i t) : t.out = s.out ∨ ∃ ra, i = .prn (regByte ra) ∧ t.out = s.out ++ [s.readReg ra] := by
  cases h with
  | prn ra => exact .inr ⟨ra, rfl, rfl⟩
  | _ => exact .inl rfl

/-- PUSH and CALL alone write memory, a byte at the decremented x[7] (20_memory.md R48). -/
theorem Completes.mem_cases (h : Completes s i t) :
    t.mem = s.mem ∨ (i.opcode = Opcode.push ∨ i.opcode = Opcode.call) ∧ ∃ v, t.mem = (s.pushByte v).mem := by
  cases h with
  | push => exact .inr ⟨.inl rfl, _, rfl⟩
  | call => exact .inr ⟨.inr rfl, _, rfl⟩
  | _ => exact .inl rfl

/-- DIV and MOD alone report, where their divisor is zero; they then change only PC besides (60_exceptions.md R154). -/
theorem Completes.diag_cases (h : Completes s i t) : t.diag = s.diag ∨ ∃ ra rb next,
    (i = .div (regByte ra) (regByte rb) ∨ i = .mod (regByte ra) (regByte rb)) ∧ s.readReg rb = 0 ∧
    next.toNat = s.pc.toNat + 3 ∧ t = (s.report (s.divByZeroEvent i.opcode (regByte ra) (regByte rb))).setPc next := by
  cases h with
  | divZero ra rb hzero hnext => exact .inr ⟨ra, rb, _, .inl rfl, hzero, hnext, rfl⟩
  | modZero ra rb hzero hnext => exact .inr ⟨ra, rb, _, .inr rfl, hzero, hnext, rfl⟩
  | _ => exact .inl rfl

end Sys2Proof.Machine
end

section
/-! PROOF. The frames of the instructions (41_alu.md R111, 10_state.md R24, 20_memory.md R48): a raised cause keeps everything but the
run state and the fault record, and what the rule of a completion keeps is read off it. -/

namespace Sys2Proof.Machine

/-! ### Registers and memory that an update keeps -/

/-- A write to the register of an operand byte keeps the registers of the other bytes. -/
theorem State.readReg_writeReg_of_regByte_ne (s : State) {ra r : RegIdx} (v : Byte) (hr : regByte r ≠ regByte ra) :
    (s.writeReg ra v).readReg r = s.readReg r :=
  s.readReg_writeReg_other v fun e => hr (e ▸ rfl)

theorem State.regsKeptBut_pushByte (s : State) (v : Byte) : s.regsKeptBut (s.pushByte v) [7] := fun r hr => by
  rw [s.readReg_pushByte, if_neg fun e => hr (List.mem_singleton.2 e.symm)]

theorem State.memKeptBut_pushByte (s : State) (v : Byte) : s.memKeptBut (s.pushByte v) s.decSp.sp := fun addr haddr => by
  rw [s.sp_decSp] at haddr
  rw [s.memRead_pushByte, if_neg haddr.symm]

/-! ### The ALU operations -/

/-- An ALU operation that completes writes its register, or reports that its divisor is zero. -/
theorem Completes.alu_cases {mk : Byte → Byte → Instr} (hmk : mk ∈ [Instr.add, Instr.sub, Instr.mul, Instr.div, Instr.mod])
    {a b : Byte} {s t : State} (h : Completes s (mk a b) t) :
    ∃ ra rb next, regByte ra = a ∧ regByte rb = b ∧ next.toNat = s.pc.toNat + 3 ∧
      ((∃ v, t = (s.writeReg ra v).setPc next) ∨
        ((mk a b = .div a b ∨ mk a b = .mod a b) ∧ s.readReg rb = 0 ∧
          t = (s.report (s.divByZeroEvent (mk a b).opcode a b)).setPc next)) := by
  simp only [List.mem_cons, List.not_mem_nil, or_false] at hmk
  obtain rfl | rfl | rfl | rfl | rfl := hmk <;> cases h
  case add ra rb next hnext => exact ⟨ra, rb, next, rfl, rfl, hnext, .inl ⟨_, rfl⟩⟩
  case sub ra rb next hnext => exact ⟨ra, rb, next, rfl, rfl, hnext, .inl ⟨_, rfl⟩⟩
  case mul ra rb next hnext => exact ⟨ra, rb, next, rfl, rfl, hnext, .inl ⟨_, rfl⟩⟩
  case div ra rb next hnext => exact ⟨ra, rb, next, rfl, rfl, hnext, .inl ⟨_, rfl⟩⟩
  case divZero ra rb next hzero hnext => exact ⟨ra, rb, next, rfl, rfl, hnext, .inr ⟨.inl rfl, hzero, rfl⟩⟩
  case mod ra rb next hnext => exact ⟨ra, rb, next, rfl, rfl, hnext, .inl ⟨_, rfl⟩⟩
  case modZero ra rb next hzero hnext => exact ⟨ra, rb, next, rfl, rfl, hnext, .inr ⟨.inr rfl, hzero, rfl⟩⟩

/-- Settles O25: a raised cause, the write of `x[a]` and the report of a zero divisor each keep the rest. -/
theorem aluFrame : Obligations.AluFrame := by
  intro mk hmk a b s t hexec
  obtain ⟨cause, info, -, rfl⟩ | h := exec_cases hexec
  · exact ⟨fun _ _ => rfl, fun _ => rfl, rfl, rfl, s.runsOnOrFaults_raise _ _, fun ht => absurd rfl ht, .inl rfl⟩
  · obtain ⟨ra, rb, next, rfl, rfl, hnext, ⟨v, rfl⟩ | ⟨hdivision, hzero, rfl⟩⟩ := h.alu_cases hmk
    · exact ⟨fun _ hr => s.readReg_writeReg_of_regByte_ne v hr, fun _ => rfl, rfl, rfl, .inl ⟨rfl, rfl⟩, fun _ => hnext, .inl rfl⟩
    · exact ⟨fun _ _ => rfl, fun _ => rfl, rfl, rfl, .inl ⟨rfl, rfl⟩, fun _ => hnext, .inr ⟨hdivision, ⟨rb, rfl, hzero⟩, rfl⟩⟩

/-! ### LDI, PRN and HALT -/

/-- Settles O29: LDI completes by a register write, PRN by an output, and HALT by the run state alone. -/
theorem ldiPrnHaltFrame : Obligations.LdiPrnHaltFrame := by
  refine ⟨fun a imm s t hexec => ?ldi, fun a s t hexec => ?prn, fun s t hexec => ?halt⟩
  case ldi =>
    obtain ⟨cause, info, -, rfl⟩ | h := exec_cases hexec
    · exact ⟨fun _ _ => rfl, fun _ => rfl, rfl, rfl, rfl, s.runsOnOrFaults_raise _ _⟩
    · cases h
      exact ⟨fun _ hr => s.readReg_writeReg_of_regByte_ne imm hr, fun _ => rfl, rfl, rfl, rfl, .inl ⟨rfl, rfl⟩⟩
  case prn =>
    obtain ⟨cause, info, -, rfl⟩ | h := exec_cases hexec
    · exact ⟨fun _ _ => rfl, fun _ => rfl, rfl, rfl, s.runsOnOrFaults_raise _ _, .inl rfl⟩
    · obtain _ | ra := h
      exact ⟨fun _ _ => rfl, fun _ => rfl, rfl, rfl, .inl ⟨rfl, rfl⟩, .inr ⟨_, rfl, rfl⟩⟩
  case halt =>
    cases hexec
    exact ⟨fun _ _ => rfl, fun _ => rfl, rfl, rfl, rfl, rfl, rfl⟩

/-! ### PUSH, CALL, POP and RET -/

/-- A PUSH or CALL that completes has pushed a byte and set only PC besides. -/
theorem Completes.eq_pushByte_setPc {mk : Byte → Instr} (hmk : mk ∈ [Instr.push, Instr.call]) {a : Byte} {s t : State}
    (h : Completes s (mk a) t) : ∃ v target, t = (s.pushByte v).setPc target := by
  simp only [List.mem_cons, List.not_mem_nil, or_false] at hmk
  obtain rfl | rfl := hmk <;> cases h <;> exact ⟨_, _, rfl⟩

/-- Settles O34: the pushed byte is the one change of memory, and x[7] the one register changed. -/
theorem pushCallFrame : Obligations.PushCallFrame := by
  intro mk hmk a s t hexec
  obtain ⟨cause, info, -, rfl⟩ | h := exec_cases hexec
  · exact ⟨fun _ _ => rfl, fun _ _ => rfl, rfl, rfl, rfl, s.runsOnOrFaults_raise _ _⟩
  · obtain ⟨v, target, rfl⟩ := h.eq_pushByte_setPc hmk
    exact ⟨s.regsKeptBut_pushByte v, s.memKeptBut_pushByte v, rfl, rfl, rfl, .inl ⟨rfl, rfl⟩⟩

/-- Settles O35: POP completes by two register writes and RET by one, and neither writes memory. -/
theorem popRetFrame : Obligations.PopRetFrame := by
  refine ⟨fun a s t hexec => ?pop, fun s t hexec => ?ret⟩
  case pop =>
    obtain ⟨cause, info, -, rfl⟩ | h := exec_cases hexec
    · exact ⟨fun _ _ _ => rfl, fun _ => rfl, rfl, rfl, rfl, s.runsOnOrFaults_raise _ _⟩
    · cases h
      refine ⟨fun r hr (hsp : r ≠ spIdx) => ?other, fun _ => rfl, rfl, rfl, rfl, .inl ⟨rfl, rfl⟩⟩
      rw [State.readReg_setPc, State.readReg_incSp, if_neg hsp.symm, s.readReg_writeReg_of_regByte_ne _ hr]
  case ret =>
    cases hexec
    refine ⟨fun r hr => ?others, fun _ => rfl, rfl, rfl, rfl, rfl, rfl⟩
    rw [State.readReg_setPc, State.readReg_incSp, if_neg fun e => hr (List.mem_singleton.2 e.symm)]

/-! ### Quotient and remainder -/

theorem toNat_divResult (x y : Byte) : (divResult x y).toNat = x.toNat / y.toNat := by
  have hle : x.toNat / y.toNat ≤ x.toNat := Nat.div_le_self _ _
  exact toNat_ofNat_of_le (by omega)

theorem toNat_modResult (x y : Byte) : (modResult x y).toNat = x.toNat % y.toNat := by
  have hle : x.toNat % y.toNat ≤ x.toNat := Nat.mod_le _ _
  exact toNat_ofNat_of_le (by omega)

theorem State.aluStep_aluDivide_of_pos (s : State) {opcode : Byte} (hn : opN opcode = 2) (ra rb : RegIdx) (f : Byte → Byte → Byte)
    (hpc : s.pc.toNat + 3 ≤ 255) (hpos : 0 < (s.readReg rb).toNat) :
    s.aluStep opcode (regByte ra) (regByte rb) (s.aluDivide opcode (regByte ra) (regByte rb) f) =
      (s.writeReg ra (f (s.readReg ra) (s.readReg rb))).setPc (BitVec.ofNat 8 (s.pc.toNat + 3)) := by
  rw [s.aluStep_aluDivide hn ra rb f hpc, if_neg (by omega)]

/-- Settles O24: the two registers hold the quotient and the remainder of plain numbers. -/
theorem quotientAndRemainder : Obligations.QuotientAndRemainder := by
  intro ra rb s hpc hpos
  refine ⟨_, _, congrArg Host.Outcome.next (s.aluStep_aluDivide_of_pos opN_div ra rb divResult hpc hpos),
    congrArg Host.Outcome.next (s.aluStep_aluDivide_of_pos opN_mod ra rb modResult hpc hpos), ?_⟩
  rw [State.readReg_setPc, State.readReg_setPc, State.readReg_writeReg_same, State.readReg_writeReg_same, toNat_divResult,
    toNat_modResult]
  exact ⟨(Nat.div_add_mod' _ _).symm, Nat.mod_lt _ hpos⟩

end Sys2Proof.Machine
end

section
/-! PROOF. What a step can do, said once: it keeps the state of a core that is not RUNNING, raises a cause, or completes the instruction
of its window. The whole-machine rules and the invariant are read off these three cases. -/

namespace Sys2Proof.Machine

/-! ### The step of a RUNNING core, by its window -/

/-- Settles O13: the step's arms for the three other run states. -/
theorem noStepUnlessRunning : Obligations.NoStepUnlessRunning := fun _ hrun => step_of_not_running hrun

/-- Settles O11: the window's range check comes before any read. -/
theorem fetchBeyondMemoryFaults : Obligations.FetchBeyondMemoryFaults := by
  intro s hrun hpc
  rw [State.faultedBy_eq_raise]
  exact step_of_window_beyond hrun (by omega)

theorem step_of_decodeWindow {s : State} {i : Instr} (hrun : s.status = .running) (hpc : s.pc.toNat ≤ 253)
    (hd : decodeWindow (s.memRead s.pc) (s.memRead (s.pc + 1)) (s.memRead (s.pc + 2)) = .ok i) : step s = exec i s := by
  obtain ⟨h, hs, rfl⟩ := selectHandler_of_decodeWindow_ok hd
  exact step_of_selectHandler_some hrun (by omega) hs

/-- A sequence of three bytes decodes as the window of them does. -/
theorem decodeWindow_of_decode {op a b : Byte} {rest : List Byte} {i : Instr} (hd : decode [op, a, b] = .ok (i, rest)) :
    decodeWindow op a b = .ok i := by
  obtain ⟨_, _, hbytes, hw, -⟩ := decode_ok_cases hd
  cases hbytes
  exact hw

/-- Settles O9: the decoder reads of three bytes what the step reads of its window. -/
theorem stepRunsDecodedInstruction : Obligations.StepRunsDecodedInstruction :=
  fun _ _ _ hrun hpc hd => step_of_decodeWindow hrun hpc (decodeWindow_of_decode hd)

/-! ### A placed window -/

theorem State.placeWindow_status (s : State) (w : Window) : (s.placeWindow w).status = .running := rfl

theorem State.placeWindow_pc (s : State) (w : Window) :
    (s.placeWindow w).pc = if s.windowFits then s.pc else Config.pcReset := rfl

theorem State.placeWindow_pc_le (s : State) (w : Window) : (s.placeWindow w).pc.toNat ≤ 253 := by
  rw [placeWindow_pc]
  split
  case isTrue hfits =>
    have := of_decide_eq_true hfits
    omega
  case isFalse => decide

/-- The three places of a window are distinct, so the last writes do not hide the first. -/
theorem State.fetchWindow_placeWindow (s : State) (w : Window) : (s.placeWindow w).fetchWindow = w := by
  have h1 : ∀ x : Byte, x + 1 ≠ x := by decide
  have h2 : ∀ x : Byte, x + 2 ≠ x := by decide
  have h21 : ∀ x : Byte, x + 2 ≠ x + 1 := by decide
  simp only [fetchWindow, placeWindow_pc]
  simp only [placeWindow, State.memRead_memWrite, h1, h2, h21, if_true, if_false]

/-- A table word's instruction is that of its three low bytes as a window. -/
theorem decodeWindow_of_decodeTableWord {nbits w : Nat} {i : Instr} (hword : decodeTableWord nbits w = some i) :
    decodeWindow (tableWordByte nbits w 0) (tableWordByte nbits w 1) (tableWordByte nbits w 2) = .ok i := by
  rw [decodeTableWord] at hword
  split at hword
  next hd => cases hword; exact decodeWindow_of_decode hd
  next => cases hword

/-- Settles O10: the placed window lies in memory and is read back as it was placed. -/
theorem placedWordIsExecuted : Obligations.PlacedWordIsExecuted := by
  intro s nbits w i hword
  obtain ⟨hop, ha, hb⟩ := Window.mk.inj (s.fetchWindow_placeWindow
    { op := tableWordByte nbits w 0, a := tableWordByte nbits w 1, b := tableWordByte nbits w 2 })
  refine step_of_decodeWindow (s.placeWindow_status _) (s.placeWindow_pc_le _) ?window
  case window =>
    rw [State.withFetchWord, hop, ha, hb]
    exact decodeWindow_of_decodeTableWord hword

/-! ### The three cases of a step -/

/-- The register operands are the first operand bytes. -/
theorem operands_eq_regOperands_append (i : Instr) : ∃ imm, i.operands = i.regOperands ++ imm := by
  cases i <;> exact ⟨_, rfl⟩

/-- The first bad register operand of a decoded instruction is the first bad byte after the opcode byte. -/
theorem find?_window_of_find?_regOperands {op a b x : Byte} {i : Instr} {p : Byte → Bool} (hd : decodeWindow op a b = .ok i)
    (hx : i.regOperands.find? p = some x) : [a, b].find? p = some x := by
  obtain ⟨imm, himm⟩ := operands_eq_regOperands_append i
  rw [operands_of_decodeWindow hd] at himm
  rw [← List.take_append_drop (opN op) [a, b], himm, List.append_assoc, List.find?_append, hx, Option.some_or]

theorem find?_pair_cases {p : Byte → Bool} {a b x : Byte} (h : [a, b].find? p = some x) : x = a ∨ (p a = false ∧ x = b) := by
  cases ha : p a with
  | true =>
    rw [List.find?_cons_of_pos ha] at h
    cases h
    exact .inl rfl
  | false =>
    rw [List.find?_cons_of_neg (Bool.eq_false_iff.1 ha)] at h
    exact .inr ⟨rfl, List.mem_singleton.1 (List.mem_of_find?_eq_some h)⟩

/-- What an instruction raises fits the table of causes, for an instruction fetched at a pc of at most 253 (60_exceptions.md R151). -/
theorem State.infoFits_of_raises {s : State} {i : Instr} {cause : FaultCause} {info : Nat} (hpc : s.pc.toNat ≤ 253)
    (hd : decodeWindow (s.memRead s.pc) (s.memRead (s.pc + 1)) (s.memRead (s.pc + 2)) = .ok i)
    (h : s.Raises i cause info) : s.infoFits cause info := by
  cases cause with
  | decodeError => exact h.elim
  | stackOverflow => exact h
  | stackUnderflow => exact h
  | addressError =>
    obtain ⟨rfl, hbeyond⟩ := h
    have hn := i.opN_opcode_le_two
    exact .inr ⟨by omega, by omega⟩
  | registerIndexError =>
    obtain ⟨b, hbad, rfl⟩ := h
    have hb := List.find?_some hbad
    refine ⟨of_decide_eq_true hb, ?firstBad⟩
    obtain rfl | ⟨ha, rfl⟩ := find?_pair_cases (find?_window_of_find?_regOperands hd hbad)
    · exact .inl rfl
    · exact .inr ⟨Nat.lt_of_not_le (of_decide_eq_false ha), rfl⟩

/-- A step keeps the state of a core that is not RUNNING; a step of a RUNNING core raises a cause with the info of the table, or
completes the instruction of its window. -/
theorem step_next_cases {s t : State} (hstep : step s = .next t) :
    (s.status ≠ .running ∧ t = s) ∨
      (s.status = .running ∧ ∃ cause info, s.infoFits cause info ∧ t = s.raise cause info) ∨
      (s.status = .running ∧ ∃ i, s.pc.toNat ≤ 253 ∧
        decodeWindow (s.memRead s.pc) (s.memRead (s.pc + 1)) (s.memRead (s.pc + 2)) = .ok i ∧ Completes s i t) := by
  by_cases hrun : s.status = .running
  case neg =>
    cases hstep.symm.trans (step_of_not_running hrun)
    exact .inl ⟨hrun, rfl⟩
  refine .inr ?_
  by_cases hpc : s.pc.toNat ≤ 253
  case neg =>
    cases hstep.symm.trans (step_of_window_beyond hrun (by omega))
    exact .inl ⟨hrun, .addressError, _, .inl ⟨by omega, rfl⟩, rfl⟩
  cases hs : selectHandler (s.memRead s.pc) with
  | none =>
    cases hstep.symm.trans (step_of_selectHandler_none hrun hpc hs)
    exact .inl ⟨hrun, .decodeError, _, rfl, rfl⟩
  | some h =>
    have hd := decodeWindow_of_selectHandler_some hs (s.memRead (s.pc + 1)) (s.memRead (s.pc + 2))
    obtain ⟨cause, info, hraises, rfl⟩ | hc := exec_cases ((step_of_decodeWindow hrun hpc hd).symm.trans hstep)
    · exact .inl ⟨hrun, cause, info, State.infoFits_of_raises hpc hd hraises, rfl⟩
    · exact .inr ⟨hrun, _, hpc, hd, hc⟩

/-- Every instruction has its meaning, and every meaning is a next state. -/
theorem exec_answers (i : Instr) (s : State) : ∃ t, exec i s = .next t := by
  cases i <;> exact ⟨_, rfl⟩

/-- Settles O14: a step keeps the state, raises a cause or executes an instruction, and each of these is a next state. -/
theorem everyStepAnswers : Obligations.EveryStepAnswers := by
  intro s
  by_cases hrun : s.status = .running
  · obtain ⟨cause, info, e⟩ | ⟨i, -, e⟩ := step_cases hrun <;> rw [e]
    · exact ⟨_, rfl⟩
    · exact exec_answers i s
  · exact ⟨s, step_of_not_running hrun⟩

/-! ### Faults and the run state -/

/-- A completion does not lead to FAULTED. -/
theorem Completes.status_ne_faulted {i : Instr} {s t : State} (hrun : s.status = .running) (h : Completes s i t) :
    t.status ≠ .faulted := by
  rw [h.status_eq, hrun]
  split <;> decide

/-- Settles O16: of the three cases only a raised cause leads to FAULTED. -/
theorem faultedStepIsPrecise : Obligations.FaultedStepIsPrecise := by
  intro s t hrun hstep ht
  obtain ⟨hnot, -⟩ | ⟨-, cause, info, hfits, rfl⟩ | ⟨-, i, -, -, h⟩ := step_next_cases hstep
  · exact absurd hrun hnot
  · exact ⟨cause, info, rfl, hfits⟩
  · exact absurd ht (h.status_ne_faulted hrun)

/-- A RUNNING core halts exactly by a HALT byte whose window lies in memory. -/
theorem step_halted_iff {s t : State} (hrun : s.status = .running) (hstep : step s = .next t) :
    t.status = .halted ↔ s.pc.toNat ≤ 253 ∧ s.memRead s.pc = Opcode.halt := by
  constructor
  · intro ht
    obtain ⟨hop, -⟩ := eq_halt_of_step_halted hrun hstep ht
    obtain ⟨hnot, -⟩ | ⟨-, cause, info, -, rfl⟩ | ⟨-, i, hpc, -, -⟩ := step_next_cases hstep
    · exact absurd hrun hnot
    · cases (s.raise_status cause info).symm.trans ht
    · exact ⟨hpc, hop⟩
  · rintro ⟨hpc, hop⟩
    have hs : selectHandler (s.memRead s.pc) = some (fun _ _ => .halt) := by rw [hop]; exact selectHandler_halt
    cases hstep.symm.trans (step_of_selectHandler_some hrun (by omega) hs)
    exact s.halt_status

theorem step_status_cases {s t : State} (hrun : s.status = .running) (hstep : step s = .next t) :
    t.status = .halted ∨ t.status = .faulted ∨ t.status = .running := by
  obtain ⟨hnot, -⟩ | ⟨-, cause, info, -, rfl⟩ | ⟨-, i, -, -, h⟩ := step_next_cases hstep
  · exact absurd hrun hnot
  · exact .inr (.inl rfl)
  · rw [h.status_eq, hrun]
    split
    · exact .inl rfl
    · exact .inr (.inr rfl)

/-- Settles O17: the host's two commands by the run state they meet, and the three ends of a step. -/
theorem runStateTransitions : Obligations.RunStateTransitions := by
  refine ⟨fun s => ?reset, fun s hidle => ?runIdle, fun s hhalted => ?runHalted, fun s => hostCommand_run_of_faulted,
    fun s t hrun hstep => ⟨step_halted_iff hrun hstep, ?faulted, step_status_cases hrun hstep⟩⟩
  case reset => rw [hostCommand_reset]; rfl
  case runIdle => rw [hostCommand_run_of_startable (.inl hidle)]
  case runHalted => rw [hostCommand_run_of_startable (.inr hhalted)]
  case faulted =>
    constructor
    · intro ht
      obtain ⟨cause, info, e, -⟩ := faultedStepIsPrecise s t hrun hstep ht
      exact ⟨cause, info, e⟩
    · rintro ⟨cause, info, rfl⟩
      exact s.raise_status cause info

/-! ### Memory, the ports and the parameters -/

/-- Settles O42: a byte that changed was pushed, and only PUSH and CALL push. -/
theorem onlyPushAndCallWriteMemory : Obligations.OnlyPushAndCallWriteMemory := by
  intro s t addr hstep hchanged
  obtain ⟨-, rfl⟩ | ⟨-, cause, info, -, rfl⟩ | ⟨-, i, -, hd, h⟩ := step_next_cases hstep
  · exact absurd rfl hchanged
  · exact absurd rfl hchanged
  · obtain hmem | ⟨hop, v, hmem⟩ := h.mem_cases
    · exact absurd (by rw [State.memRead, hmem, State.memRead]) hchanged
    · rw [opcode_of_decodeWindow hd] at hop
      refine ⟨hop, by_contra fun haddr => hchanged ?_⟩
      calc t.memRead addr = (s.pushByte v).memRead addr := by rw [State.memRead, hmem, State.memRead]
        _ = s.memRead addr := by rw [s.memRead_pushByte, if_neg (Ne.symm haddr)]

/-- Settles O43: of the completions only PRN's emits. -/
theorem onlyPrnEmits : Obligations.OnlyPrnEmits := by
  intro s t hstep
  obtain ⟨-, rfl⟩ | ⟨-, cause, info, -, rfl⟩ | ⟨-, i, -, hd, h⟩ := step_next_cases hstep
  · exact .inl rfl
  · exact .inl rfl
  · obtain hout | ⟨ra, rfl, hout⟩ := h.out_cases
    · exact .inl hout
    · exact .inr ⟨(opcode_of_decodeWindow hd).symm, _, hout⟩

/-- Where an instruction has two operand bytes, they are the window's. -/
theorem eq_window_of_operands_pair {op a b x y : Byte} {i : Instr} (hd : decodeWindow op a b = .ok i) (hi : i.operands = [x, y]) :
    x = a ∧ y = b := by
  have hn : opN op = 2 := by rw [← opcode_of_decodeWindow hd, i.opN_opcode, hi]; rfl
  have hargs := operands_of_decodeWindow hd
  rw [hi, hn] at hargs
  cases hargs
  exact ⟨rfl, rfl⟩

/-- Settles O44: of the completions only a division's by zero reports, and it changes only PC besides. -/
theorem onlyDivisionReports : Obligations.OnlyDivisionReports := by
  intro s t hstep
  obtain ⟨-, rfl⟩ | ⟨-, cause, info, -, rfl⟩ | ⟨hrun, i, -, hd, h⟩ := step_next_cases hstep
  · exact .inl rfl
  · exact .inl rfl
  · obtain hdiag | ⟨ra, rb, next, hi, -, hnext, rfl⟩ := h.diag_cases
    · exact .inl hdiag
    · have hop := opcode_of_decodeWindow hd
      have hargs : i.operands = [regByte ra, regByte rb] := by obtain rfl | rfl := hi <;> rfl
      obtain ⟨ha, hb⟩ := eq_window_of_operands_pair hd hargs
      refine .inr ⟨?opcode, hrun, rfl, rfl, hnext, ?event⟩
      case opcode => obtain rfl | rfl := hi; exacts [.inl hop.symm, .inr hop.symm]
      case event => rw [State.setPc_diag, State.report_diag, State.divByZeroEvent, hop, ha, hb]

theorem regByte_injective : Function.Injective regByte := fun r r' h =>
  Fin.ext (by rw [← regByte_toNat r, h, regByte_toNat r'])

/-- A PUSH that completes has pushed its register as the decrement left it. -/
theorem Completes.push_cases {a : Byte} {s t : State} (h : Completes s (.push a) t) :
    ∃ ra next, regByte ra = a ∧ s.params.stackMin.val < s.sp.toNat ∧ t = (s.pushByte (s.decSp.readReg ra)).setPc next := by
  cases h with
  | push ra hroom => exact ⟨ra, _, rfl, hroom, rfl⟩

/-- A window after a push reads the pushed byte at the decremented x[7] and every other byte as before. -/
theorem State.fetchWindow_pushByte_setPc (s : State) (v target : Byte) :
    ((s.pushByte v).setPc target).fetchWindow =
      { op := if target = s.sp - 1 then v else s.memRead target
        a := if target + 1 = s.sp - 1 then v else s.memRead (target + 1)
        b := if target + 2 = s.sp - 1 then v else s.memRead (target + 2) } := by
  simp only [fetchWindow, setPc_pc, memRead_setPc, memRead_pushByte, eq_comm]

/-- Settles O45: PUSH and CALL complete by a push, and the window is read after it. -/
theorem writtenByteIsFetched : Obligations.WrittenByteIsFetched := by
  intro s t i hexec ht v hv
  obtain ⟨cause, info, -, rfl⟩ | h := exec_cases hexec
  · exact absurd (s.raise_status cause info) ht
  · obtain ⟨ra, rfl, rfl⟩ | ⟨⟨a, rfl⟩, rfl⟩ := hv
    · obtain ⟨ra', next, hra, -, rfl⟩ := h.push_cases
      obtain rfl := regByte_injective hra
      exact s.fetchWindow_pushByte_setPc _ _
    · cases h
      exact s.fetchWindow_pushByte_setPc _ _

theorem hostCommand_params (c : HostCommand) (s : State) : (hostCommand c s).2.params = s.params := by
  cases c with
  | reset => rw [hostCommand_reset]; rfl
  | load bytes =>
    by_cases h : s.status = .idle ∧ bytes.length ≤ Config.memSize
    · rw [hostCommand_load_of_fits h]
    · rw [hostCommand_load_of_not_fits h]
  | run => cases h : s.status <;> simp only [hostCommand, hostRun, h]

/-- Settles O46: no case of a step and no command touches the field. -/
theorem parametersNeverChange : Obligations.ParametersNeverChange := by
  refine ⟨fun s t hstep => ?step, hostCommand_params⟩
  case step =>
    obtain ⟨-, rfl⟩ | ⟨-, cause, info, -, rfl⟩ | ⟨-, i, -, -, h⟩ := step_next_cases hstep
    · rfl
    · rfl
    · exact h.params_eq

/-! ### The invariant -/

theorem State.inv_of_no_fault {t : State} (hmem : Memory.wf t.mem = true) (hfault : t.fault = none) (hstatus : t.status ≠ .faulted) :
    t.Inv :=
  ⟨hmem, by simp [hfault, hstatus], fun f hf => by rw [hfault] at hf; cases hf⟩

theorem State.Inv.fault_eq_none {s : State} (h : s.Inv) (hstatus : s.status ≠ .faulted) : s.fault = none := by
  obtain ⟨-, hiff, -⟩ := h
  exact Option.not_isSome_iff_eq_none.1 fun hsome => hstatus (hiff.1 hsome)

/-- The record of a raised cause names the pc and the byte there, neither of which it changes. -/
theorem State.inv_raise {s : State} (hmem : Memory.wf s.mem = true) (cause : FaultCause) (info : Nat) : (s.raise cause info).Inv := by
  refine ⟨hmem, ⟨fun _ => rfl, fun _ => rfl⟩, fun f hf => ?_⟩
  cases hf
  exact ⟨rfl, rfl⟩

theorem Completes.mem_wf {i : Instr} {s t : State} (h : Completes s i t) (hmem : Memory.wf s.mem = true) : Memory.wf t.mem = true := by
  obtain e | ⟨-, v, e⟩ := h.mem_cases <;> rw [e]
  · exact hmem
  · exact State.memWrite_wf hmem _ v

/-- Settles O47: a raised cause leaves its record and a completion none, and a completion writes memory only at an address. -/
theorem stepKeepsInvariant : Obligations.StepKeepsInvariant := by
  intro s t hinv hstep
  obtain ⟨-, rfl⟩ | ⟨-, cause, info, -, rfl⟩ | ⟨hrun, i, -, -, h⟩ := step_next_cases hstep
  · exact hinv
  · exact State.inv_raise hinv.1 cause info
  · have hnone : s.fault = none := hinv.fault_eq_none (by rw [hrun]; decide)
    exact State.inv_of_no_fault (h.mem_wf hinv.1) (h.fault_eq.trans hnone) (h.status_ne_faulted hrun)

theorem State.inv_construct (p : Params) : (State.construct p).Inv :=
  State.inv_of_no_fault rfl rfl nofun

/-- Settles O49: the reset state is a construction. -/
theorem resetSatisfiesInvariant : Obligations.ResetSatisfiesInvariant := State.inv_construct Params.default

/-- `load` writes inside the address space, in IDLE, where there is no fault record. -/
theorem hostCommand_load_inv {s : State} (hinv : s.Inv) (bytes : List Byte) : (hostCommand (.load bytes) s).2.Inv := by
  by_cases h : s.status = .idle ∧ bytes.length ≤ Config.memSize
  · have hidle : s.status ≠ .faulted := by rw [h.1]; decide
    rw [hostCommand_load_of_fits h]
    exact State.inv_of_no_fault (Memory.wf_writeBytes hinv.1 (by rw [Config.loadBase]; omega)) (hinv.fault_eq_none hidle) hidle
  · rw [hostCommand_load_of_not_fits h]
    exact hinv

/-- `run` changes the run state where it is not FAULTED, to RUNNING. -/
theorem hostCommand_run_inv {s : State} (hinv : s.Inv) : (hostCommand .run s).2.Inv := by
  have started (h : s.status = .idle ∨ s.status = .halted) : (hostCommand .run s).2.Inv := by
    have hne : s.status ≠ .faulted := by obtain h | h := h <;> rw [h] <;> decide
    rw [hostCommand_run_of_startable h]
    exact State.inv_of_no_fault hinv.1 (hinv.fault_eq_none hne) nofun
  cases h : s.status with
  | idle => exact started (.inl h)
  | halted => exact started (.inr h)
  | faulted => rw [hostCommand_run_of_faulted h]; exact hinv
  | running => rw [hostCommand_run_of_running h]; exact hinv

/-- Settles O48: command by command. -/
theorem hostCommandKeepsInvariant : Obligations.HostCommandKeepsInvariant := by
  intro c s hinv
  cases c with
  | reset => exact State.inv_construct s.params
  | load bytes => exact hostCommand_load_inv hinv bytes
  | run => exact hostCommand_run_inv hinv

end Sys2Proof.Machine
end

section
/-! PROOF. The ends of a run (40_cycle.md R98, R99; 60_exceptions.md R158, R166): a run that ends and one that does not, a FAULTED core,
and the exit codes. -/

namespace Sys2Proof.Machine

/-! ### A run has no step limit -/

theorem runToEnd_add {n : Nat} {s u : State} (hend : runToEnd n s = some u) (m : Nat) : runToEnd (n + m) s = some u := by
  induction n generalizing s with
  | zero =>
    obtain ⟨hrun, rfl⟩ | ⟨_, _, hm, -⟩ := runToEnd_some_cases hend
    · exact runToEnd_of_not_running hrun _
    · cases hm
  | succ n ih =>
    obtain ⟨hrun, rfl⟩ | ⟨_, t, hm, hrun, hstep, ht⟩ := runToEnd_some_cases hend
    · exact runToEnd_of_not_running hrun _
    · cases hm
      rw [Nat.add_right_comm, runToEnd_succ_of_running hrun hstep, ih ht]

theorem running_of_runToEnd_none {n : Nat} {s : State} (h : runToEnd n s = none) : s.status = .running :=
  by_contra fun hrun => by rw [runToEnd_of_not_running hrun] at h; cases h

theorem core_run_succ {s t : State} (hstep : step s = .next t) (n : Nat) :
    Host.Core.run core (n + 1) s = Host.Core.run core n t := by
  have hcore : core.step s = .next t := hstep
  simp only [Host.Core.run, hcore]

/-- A run that never ends is RUNNING after every number of steps, the state after each step again having such a run. -/
theorem running_of_never_ends {s : State} (hnever : ∀ n, runToEnd n s = none) (n : Nat) :
    ∃ t : State, Host.Core.run core n s = Host.Outcome.next t ∧ t.status = .running := by
  have hrun : s.status = .running := running_of_runToEnd_none (hnever 0)
  induction n generalizing s with
  | zero => exact ⟨s, rfl, hrun⟩
  | succ n ih =>
    obtain ⟨t, hstep⟩ := everyStepAnswers s
    have hnever' (k : Nat) : runToEnd k t = none := by rw [← runToEnd_succ_of_running hrun hstep, hnever]
    rw [core_run_succ hstep]
    exact ih hnever' (running_of_runToEnd_none (hnever' 0))

/-- Settles O54: both parts by induction on the number of steps. -/
theorem runHasNoStepLimit : Obligations.RunHasNoStepLimit :=
  ⟨fun _ m _ _ hend => runToEnd_add hend m, fun _ => running_of_never_ends⟩

/-! ### The run of an empty memory -/

/-- Settles O51: the byte 0 at PC 0 selects no handler. -/
theorem emptyMemoryFaultsAtOnce : Obligations.EmptyMemoryFaultsAtOnce := by
  refine ⟨_, hostCommand_run_of_startable (.inl rfl), _, step_of_selectHandler_none rfl (Nat.zero_le _) ?noHandler, rfl, rfl⟩
  case noHandler => exact selectHandler_of_not_mem_dispatchTable (by decide)

/-! ### A FAULTED core -/

theorem hostRead_of_not_running {s : State} (h : s.status ≠ .running) : hostRead s = some s := if_neg h

/-- Settles O56: FAULTED is neither RUNNING, which a step needs, nor IDLE or HALTED, which `load` and `run` need. -/
theorem faultedIsTerminal : Obligations.FaultedIsTerminal := by
  intro s hfaulted
  have hrun : s.status ≠ .running := by rw [hfaulted]; decide
  refine ⟨step_of_not_running hrun, fun c hc => ?refused, ?reset, hostRead_of_not_running hrun⟩
  case reset => rw [hostCommand_reset]; rfl
  case refused =>
    cases c with
    | reset => exact absurd rfl hc
    | load bytes => exact hostCommand_load_of_not_fits fun h => by rw [hfaulted] at h; cases h.1
    | run => exact hostCommand_run_of_faulted hfaulted

/-! ### Exit codes -/

/-- The code of a cause in a map `EXIT_CODE` (60_exceptions.md R166). -/
def codeOfCause (codes : ExitCodes) : FaultCause → Int
  | .decodeError => codes.decodeError
  | .stackOverflow => codes.stackOverflow
  | .stackUnderflow => codes.stackUnderflow
  | .addressError => codes.addressError
  | .registerIndexError => codes.registerIndexError

/-- The causes by their numbers (60_exceptions.md R151). -/
def faultCauses : List FaultCause := [.decodeError, .stackOverflow, .stackUnderflow, .addressError, .registerIndexError]

theorem mem_faultCauses (cause : FaultCause) : cause ∈ faultCauses := by
  cases cause <;> decide

theorem codes_eq_map (codes : ExitCodes) : codes.codes = faultCauses.map (codeOfCause codes) := rfl

theorem exitCode_of_halted {s : State} (h : s.status = .halted) (codes : ExitCodes) : s.exitCode codes = some 0 := by
  simp only [State.exitCode, h]

theorem exitCode_of_faulted {s : State} {f : FaultRecord} (h : s.status = .faulted) (hf : s.fault = some f) (codes : ExitCodes) :
    s.exitCode codes = some (codeOfCause codes f.cause) := by
  cases hcause : f.cause <;> simp only [State.exitCode, h, hf, hcause, codeOfCause]

/-- The constraint on the map, on the codes of the causes. -/
theorem codeOfCause_of_wf {codes : ExitCodes} (hwf : codes.wf = true) :
    Function.Injective (codeOfCause codes) ∧ ∀ cause, codeOfCause codes cause ≠ 0 := by
  rw [ExitCodes.wf, codes_eq_map, Bool.and_eq_true, decide_eq_true_iff, List.all_eq_true] at hwf
  obtain ⟨hnodup, hnonzero⟩ := hwf
  refine ⟨fun c d => ?injective, fun c => ?nonzero⟩
  case injective => exact List.inj_on_of_nodup_map hnodup (mem_faultCauses c) (mem_faultCauses d)
  case nonzero => exact of_decide_eq_true (hnonzero _ (List.mem_map_of_mem (mem_faultCauses c)))

/-- Settles O57: a FAULTED end gives the code of its cause, and the constraint makes that code tell the causes apart. -/
theorem exitCodesTellEndsApart : Obligations.ExitCodesTellEndsApart := by
  intro codes hwf
  obtain ⟨hinjective, hnonzero⟩ := codeOfCause_of_wf hwf
  refine ⟨fun s h => exitCode_of_halted h codes, fun s f h hf => ?code, fun s t f g hs hf ht hg heq => ?cause⟩
  case code => exact ⟨_, exitCode_of_faulted h hf codes, hnonzero f.cause⟩
  case cause =>
    rw [exitCode_of_faulted hs hf, exitCode_of_faulted ht hg, Option.some_inj] at heq
    exact hinjective heq

end Sys2Proof.Machine
end

section
/-! PROOF. The LIFO law (43_stack.md R134). Along the sequence the values pushed and not yet popped stand in memory from x[7] up, the last
pushed first, and end below address 256: a PUSH passes its bound, so its decrement does not wrap, and a POP wraps only where nothing
that was pushed is left. -/

namespace Sys2Proof.Machine

/-! ### The pushed values in memory -/

/-- The values stand in memory from x[7] up, and none of them at address 255. -/
def State.Holds (s : State) (pushed : List Byte) : Prop :=
  s.sp.toNat + pushed.length ≤ 255 ∧ ∀ k v, pushed[k]? = some v → Memory.read s.mem (s.sp.toNat + k) = v

theorem State.holds_nil (s : State) : s.Holds [] :=
  ⟨Nat.le_of_lt_succ s.sp.isLt, nofun⟩

theorem State.Holds.congr {s t : State} {pushed : List Byte} (h : s.Holds pushed) (hsp : t.sp = s.sp) (hmem : t.mem = s.mem) :
    t.Holds pushed := by
  rw [Holds, hsp, hmem]
  exact h

theorem State.toNat_sp_pushByte {s : State} (hpos : 0 < s.sp.toNat) (v : Byte) : (s.pushByte v).sp.toNat = s.sp.toNat - 1 := by
  rw [sp_pushByte]
  bv_omega

/-- A push above address 0 puts its value before the others. -/
theorem State.Holds.pushByte {s : State} {pushed : List Byte} (h : s.Holds pushed) (hpos : 0 < s.sp.toNat) (v : Byte) :
    (s.pushByte v).Holds (v :: pushed) := by
  obtain ⟨hlen, hcells⟩ := h
  have hsp := State.toNat_sp_pushByte hpos v
  refine ⟨by rw [hsp, List.length_cons]; omega, fun k w hw => ?cell⟩
  have hmem : (s.pushByte v).mem = Memory.write s.mem (s.sp.toNat - 1) v := by rw [← hsp]; rfl
  rw [hsp, hmem]
  cases k with
  | zero =>
    cases hw
    exact Memory.read_write_same _ _ _
  | succ k =>
    rw [Memory.read_write_other _ v (by omega), ← hcells k w hw]
    congr 1
    omega

/-- The byte on top of the stack is the last value pushed. -/
theorem State.Holds.stackTop_eq {s : State} {v : Byte} {pushed : List Byte} (h : s.Holds (v :: pushed)) : s.stackTop = v := by
  obtain ⟨-, hcells⟩ := h
  exact hcells 0 v rfl

/-- With x[7] incremented the values after the first are left. -/
theorem State.Holds.tail {s t : State} {v : Byte} {pushed : List Byte} (h : s.Holds (v :: pushed)) (hsp : t.sp = s.sp + 1)
    (hmem : t.mem = s.mem) : t.Holds pushed := by
  obtain ⟨hlen, hcells⟩ := h
  rw [List.length_cons] at hlen
  have hnext : t.sp.toNat = s.sp.toNat + 1 := by rw [hsp]; bv_omega
  refine ⟨by omega, fun k w hw => ?cell⟩
  rw [hnext, hmem, Nat.add_right_comm]
  exact hcells (k + 1) w hw

/-! ### What each instruction of the sequence does to x[7] and memory -/

theorem ne_spIdx_of_regByte_ne {r : RegIdx} (h : (regByte r != 7) = true) : r ≠ spIdx := by
  rintro rfl
  exact absurd h (by decide)

theorem State.sp_writeReg_of_ne (s : State) {r : RegIdx} (hr : r ≠ spIdx) (v : Byte) : (s.writeReg r v).sp = s.sp :=
  s.readReg_writeReg_other v hr

/-- A PUSH of the sequence pushes its register's value. -/
theorem Completes.push_of_inLifoSequence {a : Byte} {s t : State} (h : Completes s (.push a) t)
    (hseq : inLifoSequence (.push a) = true) :
    ∃ ra next, regByte ra = a ∧ 0 < s.sp.toNat ∧ t = (s.pushByte (s.readReg ra)).setPc next := by
  obtain ⟨ra, next, rfl, hroom, rfl⟩ := h.push_cases
  have hne := ne_spIdx_of_regByte_ne hseq
  refine ⟨ra, next, rfl, by omega, ?_⟩
  rw [s.readReg_decSp, if_neg hne.symm]

/-- A POP of the sequence loads the top byte and increments x[7]. -/
theorem Completes.pop_of_inLifoSequence {a : Byte} {s t : State} (h : Completes s (.pop a) t)
    (hseq : inLifoSequence (.pop a) = true) :
    ∃ ra, regByte ra = a ∧ t.readReg ra = s.stackTop ∧ t.sp = s.sp + 1 ∧ t.mem = s.mem := by
  cases h with
  | pop ra =>
    have hne := ne_spIdx_of_regByte_ne hseq
    refine ⟨ra, rfl, ?loaded, ?sp, rfl⟩
    case loaded => rw [State.readReg_setPc, State.readReg_incSp, if_neg hne.symm, State.readReg_writeReg_same]
    case sp => rw [State.sp_setPc, State.sp_incSp, s.sp_writeReg_of_ne hne]

/-- Any other instruction of the sequence keeps x[7] and memory. -/
theorem Completes.sp_mem_of_inLifoSequence {i : Instr} {s t : State} (h : Completes s i t) (hseq : inLifoSequence i = true)
    (hpush : ∀ a, i ≠ .push a) (hpop : ∀ a, i ≠ .pop a) : t.sp = s.sp ∧ t.mem = s.mem := by
  cases h with
  | halt | ret | call => cases hseq
  | push => exact absurd rfl (hpush _)
  | pop => exact absurd rfl (hpop _)
  | prn | divZero | modZero => exact ⟨rfl, rfl⟩
  | ldi | add | sub | mul | div | mod =>
    exact ⟨State.sp_writeReg_of_ne s (ne_spIdx_of_regByte_ne hseq) _, rfl⟩

/-! ### The law -/

/-- x[7] has moved down by the pushes and up by the pops, modulo 256. -/
def State.Counted (s : State) (base pushes pops : Nat) : Prop := (s.sp.toNat + pushes) % 256 = (base + pops) % 256

theorem State.Counted.push {s t : State} {base pushes pops : Nat} (h : s.Counted base pushes pops)
    (hsp : t.sp.toNat = s.sp.toNat - 1) (hpos : 0 < s.sp.toNat) : t.Counted base (pushes + 1) pops := by
  unfold Counted at h ⊢
  omega

theorem State.Counted.pop {s t : State} {base pushes pops : Nat} (h : s.Counted base pushes pops) (hsp : t.sp = s.sp + 1) :
    t.Counted base pushes (pops + 1) := by
  have hnext : t.sp.toNat = (s.sp.toNat + 1) % 256 := by rw [hsp, BitVec.toNat_add]; rfl
  unfold Counted at h ⊢
  omega

theorem State.Counted.back {s : State} {base pushes pops : Nat} (h : s.Counted base pushes pops) (hbase : base < 256)
    (heq : pushes = pops) : s.sp.toNat = base := by
  have hsp := s.sp.isLt
  unfold Counted at h
  omega

theorem lifoHolds_of_holds {base : Nat} (hbase : base < 256) {is : List Instr} (hseq : ∀ i ∈ is, inLifoSequence i = true)
    {s : State} {pushed : List Byte} {pushes pops : Nat} (hholds : s.Holds pushed) (hcount : s.Counted base pushes pops) :
    lifoHolds base is s pushed pushes pops := by
  induction is generalizing s pushed pushes pops with
  | nil => exact ⟨hcount, hcount.back hbase⟩
  | cons i rest ih =>
    obtain ⟨hi, hrest⟩ := List.forall_mem_cons.1 hseq
    intro t hexec ht
    obtain ⟨cause, info, -, rfl⟩ | h := exec_cases hexec
    · exact absurd (s.raise_status cause info) ht
    cases i with
    | push a =>
      obtain ⟨ra, next, rfl, hpos, rfl⟩ := h.push_of_inLifoSequence hi
      intro r hr
      obtain rfl := regByte_injective hr
      exact ih hrest ((hholds.pushByte hpos _).congr rfl rfl)
        (hcount.push (State.toNat_sp_pushByte hpos (s.readReg r)) hpos)
    | pop a =>
      obtain ⟨ra, rfl, hloaded, hsp, hmem⟩ := h.pop_of_inLifoSequence hi
      cases pushed with
      | nil => exact ih hrest t.holds_nil (hcount.pop hsp)
      | cons v vs =>
        intro r hr
        obtain rfl := regByte_injective hr
        exact ⟨hloaded.trans hholds.stackTop_eq, ih hrest (hholds.tail hsp hmem) (hcount.pop hsp)⟩
    | _ =>
      obtain ⟨hsp, hmem⟩ := h.sp_mem_of_inLifoSequence hi nofun nofun
      exact ih hrest (hholds.congr hsp hmem) (by rw [State.Counted, hsp]; exact hcount)

/-- Settles O33: at the start nothing is pushed and nothing is counted. -/
theorem lifoLaw : Obligations.LifoLaw :=
  fun _ s hseq => lifoHolds_of_holds s.sp.isLt hseq s.holds_nil rfl

end Sys2Proof.Machine
end

section
/-! PROOF. The step refines the consolidated step of 40_cycle.md R95. The pseudocode is taken apart in its own order: the window check and
the decode, the register-index check, the advance check, the handler, and the advance after it. -/

namespace Sys2Proof.Machine

/-! ### The pseudocode after the decode -/

/-- The end of the consolidated step: a handler's error is raised, and after a handler that completes PC advances where the opcode does
not write it. -/
def finishByOpcode (op : Byte) (s : State) : Except (FaultCause × Nat) State → State
  | .error e => s.raise e.1 e.2
  | .ok t =>
    if op = 0x01#8 then t
    else if op.toNat / 16 % 2 = 0 then t.setPc (mod256 (s.pc.toNat + op.toNat / 64 + 1)) else t

/-- The consolidated step from its register-index check on. -/
def executeByOpcode (op a b : Byte) (s : State) : State :=
  match (regopsOf op a b).find? (fun r => decide (r.toNat > 7)) with
  | some r => s.raise .registerIndexError r.toNat
  | none =>
    if op.toNat / 16 % 2 = 0 ∧ op ≠ 0x01#8 ∧ s.pc.toNat + op.toNat / 64 + 1 > 255 then
      s.raise .addressError (s.pc.toNat + op.toNat / 64 + 1)
    else finishByOpcode op s (handlerByOpcode op a b s)

/-! ### The window check and the decode -/

theorem consolidatedStep_of_window_beyond {s : State} (hpc : 255 < s.pc.toNat + 2) :
    consolidatedStep s = s.raise .addressError (s.pc.toNat + 2) := if_pos hpc

/-- The two tests of the pseudocode's decode fail on exactly the bytes that select a handler. -/
theorem decode_tests_iff : ∀ op : Byte,
    ((op.toNat / 32 % 2 = 1 ∧ op ∉ [0xA0#8, 0xA1#8, 0xA2#8, 0xA3#8, 0xA4#8]) ∨
      (op.toNat / 32 % 2 = 0 ∧ op ≠ 0x01#8 ∧ op ∉ [0x11#8, 0x45#8, 0x46#8, 0x47#8, 0x50#8, 0x82#8])) ↔
      (selectHandler op).isNone = true := by
  decide

theorem mod256_toNat_add (x : Byte) (n : Nat) : mod256 (x.toNat + n) = x + BitVec.ofNat 8 n := by
  rw [mod256, ofNat_mod_256, BitVec.ofNat_add, BitVec.ofNat_toNat, BitVec.setWidth_eq]

theorem consolidatedStep_of_window {s : State} (hpc : s.pc.toNat ≤ 253) :
    consolidatedStep s =
      if (selectHandler (s.memRead s.pc)).isNone = true then s.raise .decodeError 0
      else executeByOpcode (s.memRead s.pc) (s.memRead (s.pc + 1)) (s.memRead (s.pc + 2)) s := by
  have hfits : ¬ s.pc.toNat + 2 > 255 := by omega
  simp only [consolidatedStep, if_neg hfits, mod256_toNat_add, ← ite_or, decode_tests_iff] <;> rfl

/-! ### The fields of the opcode byte and the operands, as the pseudocode computes them -/

theorem opSetsPc_eq_decide : ∀ op : Byte, opSetsPc op = !decide (op.toNat / 16 % 2 = 0) := by decide

theorem eq_halt_of_opcode {i : Instr} (h : i.opcode = Opcode.halt) : i = .halt :=
  encode_injective (by
    have hargs : i.operands = [] := List.length_eq_zero_iff.1 (by rw [← i.opN_opcode, h, opN_halt])
    rw [encode, h, hargs]
    rfl)

theorem regopsOf_eq_regOperands {op : Byte} {h : Handler} (hs : selectHandler op = some h) (a b : Byte) :
    regopsOf op a b = (h a b).regOperands := by
  obtain ⟨rfl, rfl⟩ | ⟨rfl, rfl⟩ | ⟨rfl, rfl⟩ | ⟨rfl, rfl⟩ | ⟨rfl, rfl⟩ | ⟨rfl, rfl⟩ | ⟨rfl, rfl⟩ | ⟨rfl, rfl⟩ | ⟨rfl, rfl⟩ |
    ⟨rfl, rfl⟩ | ⟨rfl, rfl⟩ | ⟨rfl, rfl⟩ := selectHandler_cases hs <;> rfl

theorem checkedIndex_regByte (r : RegIdx) : checkedIndex (regByte r) = r := by
  refine Fin.ext ?_
  calc (regByte r).toNat % 8 = r.val % 8 := by rw [regByte_toNat]
    _ = r.val := Nat.mod_eq_of_lt r.isLt

/-! ### The end of the step -/

/-- Where the opcode does not write PC, it moves by n + 1. -/
theorem finishByOpcode_of_sequential {op : Byte} (hne : op ≠ Opcode.halt) (hseq : opSetsPc op = false) {n : Nat} (hn : opN op = n)
    (s t : State) : finishByOpcode op s (.ok t) = t.setPc (BitVec.ofNat 8 (s.pc.toNat + n + 1)) := by
  have hbit : op.toNat / 16 % 2 = 0 := by simpa [opSetsPc_eq_decide] using hseq
  have hhalt : ¬ op = 0x01#8 := hne
  rw [finishByOpcode, if_neg hhalt, if_pos hbit, ← opN_eq_div, hn, mod256, ofNat_mod_256]

/-! ### The handlers -/

section handlers
variable (a b : Byte) (s : State)

theorem handlerByOpcode_add :
    handlerByOpcode Opcode.add a b s = .ok (s.aluWrite addResult (checkedIndex a) (checkedIndex b)) := by
  rw [State.aluWrite, addResult_eq_mod]
  rfl

/-- The pseudocode adds 256 before it subtracts, so that its difference is never negative. -/
theorem subResult_eq_mod256 (x y : Byte) : subResult x y = mod256 (x.toNat + 256 - y.toNat) := by
  have hy := y.isLt
  rw [subResult_eq_mod, mod256]
  congr 1
  omega

theorem handlerByOpcode_sub :
    handlerByOpcode Opcode.sub a b s = .ok (s.aluWrite subResult (checkedIndex a) (checkedIndex b)) := by
  rw [State.aluWrite, subResult_eq_mod256]
  rfl

theorem handlerByOpcode_mul :
    handlerByOpcode Opcode.mul a b s = .ok (s.aluWrite mulResult (checkedIndex a) (checkedIndex b)) := by
  rw [State.aluWrite, mulResult_eq_mod]
  rfl

theorem handlerByOpcode_div :
    handlerByOpcode Opcode.div a b s = .ok (s.aluDivide Opcode.div a b divResult (checkedIndex a) (checkedIndex b)) := by
  rw [s.aluDivide_eq, divResult, ← ofNat_mod_256, apply_ite Except.ok]
  rfl

theorem handlerByOpcode_mod :
    handlerByOpcode Opcode.mod a b s = .ok (s.aluDivide Opcode.mod a b modResult (checkedIndex a) (checkedIndex b)) := by
  rw [s.aluDivide_eq, modResult, ← ofNat_mod_256, apply_ite Except.ok]
  rfl

theorem handlerByOpcode_ldi : handlerByOpcode Opcode.ldi a b s = .ok (s.writeReg (checkedIndex a) b) := rfl

theorem handlerByOpcode_prn : handlerByOpcode Opcode.prn a b s = .ok (s.emit (s.readReg (checkedIndex a))) := rfl

theorem handlerByOpcode_halt : handlerByOpcode Opcode.halt a b s = .ok s.halt := rfl

theorem State.decSp_eq_mod256 : s.decSp = s.writeReg spIdx (mod256 (s.sp.toNat + 255)) := by
  rw [decSp, sub_one_eq_mod, mod256]

theorem handlerByOpcode_push :
    handlerByOpcode Opcode.push a b s =
      if s.sp.toNat ≤ s.params.stackMin.val then .error (.stackOverflow, s.sp.toNat)
      else .ok (s.pushByte (s.decSp.readReg (checkedIndex a))) := by
  rw [State.pushByte, s.decSp_eq_mod256]
  rfl

theorem State.sp_eq_spReset_iff : s.sp = Config.spReset ↔ s.sp.toNat = 244 := by
  rw [← BitVec.toNat_inj]
  rfl

theorem handlerByOpcode_pop :
    handlerByOpcode Opcode.pop a b s =
      if s.sp = Config.spReset then .error (.stackUnderflow, s.sp.toNat)
      else .ok (s.writeReg (checkedIndex a) s.stackTop).incSp := by
  rw [State.incSp, add_one_eq_mod]
  simp only [s.sp_eq_spReset_iff]
  rfl

theorem handlerByOpcode_call :
    handlerByOpcode Opcode.call a b s =
      if s.params.callChecksOverflow = true ∧ s.sp.toNat ≤ s.params.stackMin.val then .error (.stackOverflow, s.sp.toNat)
      else .ok ((s.pushByte s.returnAddress).setPc ((s.pushByte s.returnAddress).readReg (checkedIndex a))) := by
  have hreturn : s.returnAddress = mod256 (s.pc.toNat + 2) := (mod256_toNat_add s.pc 2).symm
  rw [State.pushByte, s.decSp_eq_mod256, hreturn]
  rfl

theorem handlerByOpcode_ret : handlerByOpcode Opcode.ret a b s = .ok (s.incSp.setPc s.stackTop) := by
  rw [State.incSp, add_one_eq_mod]
  rfl

end handlers

/-! ### Each instruction against its handler, where the checks pass -/

theorem finishByOpcode_of_setsPc {op : Byte} (hne : op ≠ Opcode.halt) (hsets : opSetsPc op = true) (s t : State) :
    finishByOpcode op s (.ok t) = t := by
  have hbit : ¬ op.toNat / 16 % 2 = 0 := by simpa [opSetsPc_eq_decide] using hsets
  have hhalt : ¬ op = 0x01#8 := hne
  rw [finishByOpcode, if_neg hhalt, if_neg hbit]

theorem aluStep_eq_finish {op : Byte} (hn : opN op = 2) (hne : op ≠ Opcode.halt) (hseq : opSetsPc op = false) (ra rb : RegIdx)
    {s : State} {effect : RegIdx → RegIdx → State} (hpc : s.pc.toNat + 3 ≤ 255)
    (hhandler : handlerByOpcode op (regByte ra) (regByte rb) s =
      .ok (effect (checkedIndex (regByte ra)) (checkedIndex (regByte rb)))) :
    s.aluStep op (regByte ra) (regByte rb) effect = finishByOpcode op s (handlerByOpcode op (regByte ra) (regByte rb) s) := by
  rw [hhandler, finishByOpcode_of_sequential hne hseq hn, s.aluStep_of_le hn ra rb effect hpc, checkedIndex_regByte,
    checkedIndex_regByte]

theorem exec_push_eq_finish (ra : RegIdx) (b : Byte) {s : State} (hpc : s.pc.toNat + 2 ≤ 255) :
    exec (.push (regByte ra)) s =
      .next (finishByOpcode Opcode.push s (handlerByOpcode Opcode.push (regByte ra) b s)) := by
  rw [handlerByOpcode_push, checkedIndex_regByte]
  split
  next hfull => exact exec_push_of_full ra hpc hfull
  next hroom => rw [exec_push_of_room ra hpc (by omega), finishByOpcode_of_sequential (by decide) opSetsPc_push opN_push]

theorem exec_pop_eq_finish (ra : RegIdx) (b : Byte) {s : State} (hpc : s.pc.toNat + 2 ≤ 255) :
    exec (.pop (regByte ra)) s =
      .next (finishByOpcode Opcode.pop s (handlerByOpcode Opcode.pop (regByte ra) b s)) := by
  rw [handlerByOpcode_pop, checkedIndex_regByte]
  split
  next hempty => exact exec_pop_of_empty ra hpc hempty
  next hitem => rw [exec_pop_of_item ra hpc hitem, finishByOpcode_of_sequential (by decide) opSetsPc_pop opN_pop]

theorem exec_call_eq_finish (ra : RegIdx) (b : Byte) (s : State) :
    exec (.call (regByte ra)) s =
      .next (finishByOpcode Opcode.call s (handlerByOpcode Opcode.call (regByte ra) b s)) := by
  rw [handlerByOpcode_call, checkedIndex_regByte]
  split
  next hfull => exact exec_call_of_full ra hfull.1 hfull.2
  next hroom => rw [exec_call_of_room ra hroom, finishByOpcode_of_setsPc (by decide) opSetsPc_call]

theorem exec_prn_eq_finish (ra : RegIdx) (b : Byte) {s : State} (hpc : s.pc.toNat + 2 ≤ 255) :
    exec (.prn (regByte ra)) s = .next (finishByOpcode Opcode.prn s (handlerByOpcode Opcode.prn (regByte ra) b s)) := by
  rw [handlerByOpcode_prn, checkedIndex_regByte, finishByOpcode_of_sequential (by decide) opSetsPc_prn opN_prn, exec, execPrn,
    opN_prn, s.withReg_withNextPc_of_le ra hpc]

theorem exec_ldi_eq_finish (ra : RegIdx) (imm : Byte) {s : State} (hpc : s.pc.toNat + 3 ≤ 255) :
    exec (.ldi (regByte ra) imm) s =
      .next (finishByOpcode Opcode.ldi s (handlerByOpcode Opcode.ldi (regByte ra) imm s)) := by
  rw [handlerByOpcode_ldi, checkedIndex_regByte, finishByOpcode_of_sequential (by decide) opSetsPc_ldi opN_ldi, exec, execLdi,
    opN_ldi, s.withReg_withNextPc_of_le ra hpc]

/-- The meaning of a selected instruction is the handler of the opcode byte and the advance after it. -/
theorem exec_eq_finish {op a b : Byte} {s : State} {h : Handler} (hs : selectHandler op = some h) (hwf : (h a b).wellFormed = true)
    (hadv : ∀ {n}, h a b ≠ .halt → opSetsPc (h a b).opcode = false → opN (h a b).opcode = n → s.pc.toNat + n + 1 ≤ 255) :
    exec (h a b) s = .next (finishByOpcode op s (handlerByOpcode op a b s)) := by
  obtain ⟨rfl, rfl⟩ | ⟨rfl, rfl⟩ | ⟨rfl, rfl⟩ | ⟨rfl, rfl⟩ | ⟨rfl, rfl⟩ | ⟨rfl, rfl⟩ | ⟨rfl, rfl⟩ | ⟨rfl, rfl⟩ | ⟨rfl, rfl⟩ |
    ⟨rfl, rfl⟩ | ⟨rfl, rfl⟩ | ⟨rfl, rfl⟩ := selectHandler_cases hs
  · rw [handlerByOpcode_halt]
    rfl
  · rw [handlerByOpcode_ret, finishByOpcode_of_setsPc (by decide) opSetsPc_ret, exec_ret]
  · obtain ⟨ra, rfl⟩ := exists_regByte_of_wellFormed (i := .push a) rfl hwf
    exact exec_push_eq_finish ra b (hadv nofun opSetsPc_push opN_push)
  · obtain ⟨ra, rfl⟩ := exists_regByte_of_wellFormed (i := .pop a) rfl hwf
    exact exec_pop_eq_finish ra b (hadv nofun opSetsPc_pop opN_pop)
  · obtain ⟨ra, rfl⟩ := exists_regByte_of_wellFormed (i := .prn a) rfl hwf
    exact exec_prn_eq_finish ra b (hadv nofun opSetsPc_prn opN_prn)
  · obtain ⟨ra, rfl⟩ := exists_regByte_of_wellFormed (i := .call a) rfl hwf
    exact exec_call_eq_finish ra b s
  · obtain ⟨ra, rfl⟩ := exists_regByte_of_wellFormed (i := .ldi a b) rfl hwf
    exact exec_ldi_eq_finish ra b (hadv nofun opSetsPc_ldi opN_ldi)
  · obtain ⟨ra, rb, rfl, rfl⟩ := exists_regByte_pair_of_wellFormed (i := .add a b) rfl hwf
    exact congrArg Host.Outcome.next (aluStep_eq_finish opN_add (by decide) opSetsPc_add ra rb (hadv nofun opSetsPc_add opN_add)
      (handlerByOpcode_add _ _ s))
  · obtain ⟨ra, rb, rfl, rfl⟩ := exists_regByte_pair_of_wellFormed (i := .sub a b) rfl hwf
    exact congrArg Host.Outcome.next (aluStep_eq_finish opN_sub (by decide) opSetsPc_sub ra rb (hadv nofun opSetsPc_sub opN_sub)
      (handlerByOpcode_sub _ _ s))
  · obtain ⟨ra, rb, rfl, rfl⟩ := exists_regByte_pair_of_wellFormed (i := .mul a b) rfl hwf
    exact congrArg Host.Outcome.next (aluStep_eq_finish opN_mul (by decide) opSetsPc_mul ra rb (hadv nofun opSetsPc_mul opN_mul)
      (handlerByOpcode_mul _ _ s))
  · obtain ⟨ra, rb, rfl, rfl⟩ := exists_regByte_pair_of_wellFormed (i := .div a b) rfl hwf
    exact congrArg Host.Outcome.next (aluStep_eq_finish opN_div (by decide) opSetsPc_div ra rb (hadv nofun opSetsPc_div opN_div)
      (handlerByOpcode_div _ _ s))
  · obtain ⟨ra, rb, rfl, rfl⟩ := exists_regByte_pair_of_wellFormed (i := .mod a b) rfl hwf
    exact congrArg Host.Outcome.next (aluStep_eq_finish opN_mod (by decide) opSetsPc_mod ra rb (hadv nofun opSetsPc_mod opN_mod)
      (handlerByOpcode_mod _ _ s))

/-- The consolidated step from its register-index check on is the meaning of the selected instruction. -/
theorem exec_eq_executeByOpcode {op a b : Byte} {h : Handler} (hs : selectHandler op = some h) (s : State) :
    exec (h a b) s = .next (executeByOpcode op a b s) := by
  have hop : (h a b).opcode = op := opcode_of_selectHandler hs a b
  rw [executeByOpcode, regopsOf_eq_regOperands hs]
  split
  next r hbad => exact exec_of_first_bad_register hbad s
  next hgood =>
    have hwf := wellFormed_of_no_bad_register hgood
    split
    next hbeyond =>
      obtain ⟨hbit, hne, hpc⟩ := hbeyond
      rw [← opN_eq_div, ← hop] at hpc ⊢
      refine exec_of_advance_beyond hwf (fun e => hne ?_) (by simpa [opSetsPc_eq_decide, hop] using hbit) hpc
      rw [← hop, e]
      rfl
    next hfits =>
      refine exec_eq_finish hs hwf fun hne hseq hn => Nat.le_of_not_lt fun hpc => hfits ⟨?_, ?_, ?_⟩
      · simpa [opSetsPc_eq_decide, hop] using hseq
      · rintro rfl
        exact hne (eq_halt_of_opcode hop)
      · rw [← opN_eq_div, ← hop, hn]
        exact hpc

/-- Settles O15: the same three outcomes of the window, and for an instruction the same checks, handler and advance. -/
theorem stepIsConsolidatedStep : Obligations.StepIsConsolidatedStep := by
  intro s hrun
  by_cases hpc : s.pc.toNat ≤ 253
  case neg => rw [step_of_window_beyond hrun (by omega), consolidatedStep_of_window_beyond (by omega)]
  rw [consolidatedStep_of_window hpc]
  cases hs : selectHandler (s.memRead s.pc) with
  | none => rw [step_of_selectHandler_none hrun hpc hs, Option.isNone_none, if_pos rfl]
  | some h =>
    rw [step_of_selectHandler_some hrun (by omega) hs, Option.isNone_some, if_neg Bool.false_ne_true,
      exec_eq_executeByOpcode hs]

end Sys2Proof.Machine
end

section
/-! PROOF. The assembler on an instruction's own text (30_encoding.md R80, R81). The text is a mnemonic and at most two operands, each a
word: nonempty, with no blank and no character that separates parts. So the splitting finds the words again, and a register or a
number reads back as it was written. -/

namespace Sys2Proof.Machine

/-! ### Digits -/

theorem digitValue_of_isDigit {c : Char} (h : c.isDigit = true) : digitValue c = some (c.toNat - '0'.toNat) :=
  if_pos (Char.isDigit_iff_toNat.1 h)

theorem readDigits_eq_ofDigitChars {cs : List Char} (hdigits : ∀ c ∈ cs, c.isDigit = true) (acc : Nat) :
    readDigits 10 acc cs = some (Nat.ofDigitChars 10 cs acc) := by
  induction cs generalizing acc with
  | nil => rfl
  | cons c cs ih =>
    obtain ⟨hc, hcs⟩ := List.forall_mem_cons.1 hdigits
    have hlt : c.toNat - '0'.toNat < 10 := by
      have hle : c.toNat ≤ 57 := (Char.isDigit_iff_toNat.1 hc).2
      have h0 : '0'.toNat = 48 := rfl
      omega
    simp only [readDigits, digitValue_of_isDigit hc, hlt, if_true, ih hcs, Nat.ofDigitChars_cons]

/-- A text of digits alone is read in decimal: no second character is the mark of another base. -/
theorem readNumber_of_isDigit {cs : List Char} (hne : cs ≠ []) (hdigits : ∀ c ∈ cs, c.isDigit = true) :
    readNumber cs = readDigits 10 0 cs := by
  unfold readNumber
  split
  · exact absurd (hdigits 'x' (by simp)) (by decide)
  · exact absurd (hdigits 'b' (by simp)) (by decide)
  · rfl
  · exact absurd rfl hne

theorem isDigit_of_mem_decimal {n : Nat} : ∀ c ∈ Nat.toDigits 10 n, c.isDigit = true :=
  fun _ hc => Nat.isDigit_of_mem_toDigits (by decide) (by decide) hc

theorem readNumber_toDigits (n : Nat) : readNumber (Nat.toDigits 10 n) = some n := by
  rw [readNumber_of_isDigit Nat.toDigits_ne_nil isDigit_of_mem_decimal, readDigits_eq_ofDigitChars isDigit_of_mem_decimal,
    Nat.ofDigitChars_toDigits (by decide) (by decide)]

/-! ### Operands read back -/

theorem readRegister_registerText {a : Byte} (ha : a.toNat < 8) : readRegister (registerText a) = some a := by
  have hten : a.toNat < 10 := by omega
  have hdigit : a.toNat.digitChar.isDigit = true := by rw [Nat.isDigit_digitChar, decide_eq_true hten]
  have hvalue : digitValue a.toNat.digitChar = some a.toNat := by
    rw [digitValue_of_isDigit hdigit]
    exact congrArg some (Nat.toNat_digitChar_sub_48_of_lt_ten hten)
  have hread : readRegister ['R', a.toNat.digitChar] = assembleRegister a.toNat := by simp only [readRegister, hvalue]
  rw [registerText, Nat.toDigits_of_lt_base hten, hread, assembleRegister, if_pos ha, BitVec.ofNat_toNat, BitVec.setWidth_eq]

theorem readLdi_toDigits (a imm : Byte) : readLdi a (Nat.toDigits 10 imm.toNat) = some (.instr (.ldi a imm)) := by
  simp only [readLdi, readNumber_toDigits, assembleImmediate, if_pos imm.isLt, BitVec.ofNat_toNat, BitVec.setWidth_eq, Option.map_some]

/-! ### Words -/

/-- A character that neither ends a word nor separates parts of a text. -/
def isPlain (c : Char) : Bool := !(isBlank c) && !(isSeparator c) && c != ',' && c != ':'

/-- A mnemonic or an operand as it stands in a text. -/
def isWord (w : List Char) : Bool := !w.isEmpty && w.all isPlain

theorem isWord_iff {w : List Char} : isWord w = true ↔ w ≠ [] ∧ ∀ c ∈ w, isPlain c = true := by
  simp [isWord]

theorem isPlain_iff {c : Char} : isPlain c = true ↔ isBlank c = false ∧ isSeparator c = false ∧ c ≠ ',' ∧ c ≠ ':' := by
  simp [isPlain, and_assoc]

/-- A digit's code lies above those of the blanks, the separators and the comma, and below those of `:` and `;`. -/
theorem isPlain_of_isDigit {c : Char} (h : c.isDigit = true) : isPlain c = true := by
  by_contra hplain
  have hcases : c = ' ' ∨ c = '\t' ∨ c = ';' ∨ c = '\n' ∨ c = ',' ∨ c = ':' := by
    simp [isPlain, isBlank, isSeparator] at hplain
    tauto
  obtain rfl | rfl | rfl | rfl | rfl | rfl := hcases <;> exact absurd h (by decide)

theorem isWord_toDigits (n : Nat) : isWord (Nat.toDigits 10 n) = true :=
  isWord_iff.2 ⟨Nat.toDigits_ne_nil, fun c hc => isPlain_of_isDigit (isDigit_of_mem_decimal c hc)⟩

theorem isWord_registerText (a : Byte) : isWord (registerText a) = true := by
  refine isWord_iff.2 ⟨List.cons_ne_nil _ _, List.forall_mem_cons.2 ⟨by decide, fun c hc => ?digit⟩⟩
  case digit => exact isPlain_of_isDigit (isDigit_of_mem_decimal c hc)

theorem isBlank_of_mem_word {w : List Char} (hw : isWord w = true) : ∀ c ∈ w, (!(isBlank c)) = true := fun c hc => by
  obtain ⟨-, hplain⟩ := isWord_iff.1 hw
  obtain ⟨hblank, -⟩ := isPlain_iff.1 (hplain c hc)
  rw [hblank, Bool.not_false]

theorem isWord_reverse {w : List Char} (hw : isWord w = true) : isWord w.reverse = true := by
  obtain ⟨hne, hplain⟩ := isWord_iff.1 hw
  exact isWord_iff.2 ⟨by simpa using hne, by simpa using hplain⟩

/-! ### Splitting and trimming -/

variable {sep : Char → Bool}

theorem splitText_of_forall {cs : List Char} (h : ∀ c ∈ cs, sep c = false) : splitText sep cs = [cs] := by
  induction cs with
  | nil => rfl
  | cons c cs ih =>
    obtain ⟨hc, hcs⟩ := List.forall_mem_cons.1 h
    simp only [splitText, hc, ih hcs, Bool.false_eq_true, if_false]

theorem splitText_append_cons {p q : List Char} {c : Char} (hp : ∀ d ∈ p, sep d = false) (hc : sep c = true) :
    splitText sep (p ++ c :: q) = p :: splitText sep q := by
  induction p with
  | nil => simp only [List.nil_append, splitText, hc, if_true]
  | cons d p ih =>
    obtain ⟨hd, hp⟩ := List.forall_mem_cons.1 hp
    simp only [List.cons_append, splitText, hd, ih hp, Bool.false_eq_true, if_false]

theorem dropWhile_isBlank_word_append {w : List Char} (hw : isWord w = true) (cs : List Char) :
    (w ++ cs).dropWhile isBlank = w ++ cs := by
  obtain ⟨hne, hplain⟩ := isWord_iff.1 hw
  obtain ⟨c, w, rfl⟩ := List.exists_cons_of_ne_nil hne
  obtain ⟨hblank, -⟩ := isPlain_iff.1 (hplain c List.mem_cons_self)
  rw [List.cons_append, List.dropWhile_cons_of_neg (by rw [hblank]; decide)]

/-- A text that begins and ends with a word has no blanks at its ends. -/
theorem trimText_of_words {cs w v p q : List Char} (hw : isWord w = true) (hv : isWord v = true) (hbegin : cs = w ++ p)
    (hend : cs = q ++ v) : trimText cs = cs := by
  have hfront : cs.dropWhile isBlank = cs := by rw [hbegin, dropWhile_isBlank_word_append hw]
  have hback : cs.reverse.dropWhile isBlank = cs.reverse := by
    rw [hend, List.reverse_append, dropWhile_isBlank_word_append (isWord_reverse hv)]
  rw [trimText, hfront, hback, List.reverse_reverse]

theorem trimText_word {w : List Char} (hw : isWord w = true) : trimText w = w :=
  trimText_of_words (p := []) (q := []) hw hw (List.append_nil w).symm rfl

theorem trimText_blank_cons (cs : List Char) : trimText (' ' :: cs) = trimText cs := rfl

/-! ### One instruction's text -/

theorem readInstruction_word {m : List Char} (hm : isWord m = true) : readInstruction m = readForm m [] := by
  have htake : m.takeWhile (fun c => !(isBlank c)) = m := List.takeWhile_eq_self_iff.2 (isBlank_of_mem_word hm)
  have hdrop : m.dropWhile (fun c => !(isBlank c)) = [] := List.dropWhile_eq_nil_iff.2 (isBlank_of_mem_word hm)
  rw [readInstruction, htake, hdrop]
  rfl

/-- After the mnemonic and a blank stand the operands, between commas. -/
theorem readInstruction_word_append {m : List Char} (hm : isWord m = true) {operands : List Char}
    (hne : trimText operands ≠ []) :
    readInstruction (m ++ ' ' :: operands) = readForm m ((splitText (· == ',') (trimText operands)).map trimText) := by
  have htake : (m ++ ' ' :: operands).takeWhile (fun c => !(isBlank c)) = m := by
    rw [List.takeWhile_append_of_pos (isBlank_of_mem_word hm), List.takeWhile_cons_of_neg (by decide), List.append_nil]
  have hdrop : (m ++ ' ' :: operands).dropWhile (fun c => !(isBlank c)) = ' ' :: operands := by
    rw [List.dropWhile_append_of_pos (isBlank_of_mem_word hm), List.dropWhile_cons_of_neg (by decide)]
  rw [readInstruction, htake, hdrop, trimText_blank_cons]
  simp only [List.isEmpty_iff, hne, if_false]

theorem ne_comma_of_mem_word {w : List Char} (hw : isWord w = true) : ∀ c ∈ w, (c == ',') = false := fun c hc => by
  obtain ⟨-, hplain⟩ := isWord_iff.1 hw
  obtain ⟨-, -, hcomma, -⟩ := isPlain_iff.1 (hplain c hc)
  exact beq_false_of_ne hcomma

theorem readInstruction_unary {m x : List Char} (hm : isWord m = true) (hx : isWord x = true) :
    readInstruction (m ++ ' ' :: x) = readForm m [x] := by
  have htrim := trimText_word hx
  rw [readInstruction_word_append hm (by rw [htrim]; exact (isWord_iff.1 hx).1), htrim,
    splitText_of_forall (ne_comma_of_mem_word hx), List.map_singleton, htrim]

theorem readInstruction_binary {m x y : List Char} (hm : isWord m = true) (hx : isWord x = true) (hy : isWord y = true) :
    readInstruction (m ++ ' ' :: (x ++ ',' :: ' ' :: y)) = readForm m [x, y] := by
  have htrim : trimText (x ++ ',' :: ' ' :: y) = x ++ ',' :: ' ' :: y :=
    trimText_of_words (q := x ++ [',', ' ']) hx hy rfl (by rw [List.append_assoc]; rfl)
  have hsplit : splitText (· == ',') (x ++ ',' :: ' ' :: y) = [x, ' ' :: y] := by
    rw [splitText_append_cons (ne_comma_of_mem_word hx) rfl, splitText_of_forall]
    exact List.forall_mem_cons.2 ⟨by decide, ne_comma_of_mem_word hy⟩
  rw [readInstruction_word_append hm (by rw [htrim]; simp), htrim, hsplit, List.map_cons, List.map_singleton, trimText_word hx,
    trimText_blank_cons, trimText_word hy]

/-! ### A text of one statement -/

/-- A character of one statement with no label. -/
def isInline (c : Char) : Bool := !(isSeparator c) && c != ':'

theorem isInline_of_mem_word {w : List Char} (hw : isWord w = true) : ∀ c ∈ w, isInline c = true := fun c hc => by
  obtain ⟨-, hplain⟩ := isWord_iff.1 hw
  obtain ⟨-, hsep, -, hcolon⟩ := isPlain_iff.1 (hplain c hc)
  simp [isInline, hsep, hcolon]

/-- A text that is one statement with no label assembles to its instruction's bytes. -/
theorem assembleText_of_readInstruction {text : List Char} {i : Instr} (hinline : ∀ c ∈ text, isInline c = true)
    (htrim : trimText text = text) (hne : text ≠ []) (hread : readInstruction text = some (.instr i)) :
    assembleText text = assemble i := by
  have hsep : splitText isSeparator text = [text] := splitText_of_forall fun c hc => by
    have := hinline c hc
    simp_all [isInline]
  have hcolon : splitText (· == ':') text = [text] := splitText_of_forall fun c hc => by
    have := hinline c hc
    simp_all [isInline]
  have hstatement : readStatement [text] = some [.instr i] := by
    simp only [readStatement, htrim, hread, List.isEmpty_iff, hne, if_false, Option.map_some]
  have hitems : readStatements [text] = some [.instr i] := by
    simp only [readStatements, hcolon, hstatement, List.append_nil]
  rw [assembleText, hsep, hitems]
  cases hbytes : assemble i <;> simp [itemsBytes, AsmItem.bytes, hbytes]

theorem assembleText_nullary {m : List Char} {i : Instr} (hm : isWord m = true) (hform : readForm m [] = some (.instr i)) :
    assembleText m = assemble i :=
  assembleText_of_readInstruction (isInline_of_mem_word hm) (trimText_word hm) (isWord_iff.1 hm).1
    (by rw [readInstruction_word hm, hform])

theorem assembleText_unary {m x : List Char} {i : Instr} (hm : isWord m = true) (hx : isWord x = true)
    (hform : readForm m [x] = some (.instr i)) : assembleText (m ++ ' ' :: x) = assemble i := by
  refine assembleText_of_readInstruction ?inline ?trim (by simp) (by rw [readInstruction_unary hm hx, hform])
  case inline =>
    exact List.forall_mem_append.2 ⟨isInline_of_mem_word hm, List.forall_mem_cons.2 ⟨by decide, isInline_of_mem_word hx⟩⟩
  case trim => exact trimText_of_words (q := m ++ [' ']) hm hx rfl (by rw [List.append_assoc]; rfl)

theorem assembleText_binary {m x y : List Char} {i : Instr} (hm : isWord m = true) (hx : isWord x = true) (hy : isWord y = true)
    (hform : readForm m [x, y] = some (.instr i)) : assembleText (m ++ ' ' :: (x ++ ',' :: ' ' :: y)) = assemble i := by
  refine assembleText_of_readInstruction ?inline ?trim (by simp) (by rw [readInstruction_binary hm hx hy, hform])
  case inline =>
    exact List.forall_mem_append.2 ⟨isInline_of_mem_word hm, List.forall_mem_cons.2 ⟨by decide,
      List.forall_mem_append.2 ⟨isInline_of_mem_word hx, List.forall_mem_cons.2 ⟨by decide,
        List.forall_mem_cons.2 ⟨by decide, isInline_of_mem_word hy⟩⟩⟩⟩⟩
  case trim =>
    exact trimText_of_words (q := m ++ ' ' :: (x ++ [',', ' '])) hm hy rfl (by simp)

/-! ### The forms of R80 -/

theorem readForm_unary {m : List Char} {mk : Byte → Instr} (hm : unaryMnemonic m = some mk) {a : Byte} (ha : a.toNat < 8) :
    readForm m [registerText a] = some (.instr (mk a)) := by
  simp only [readForm, hm, readRegister_registerText ha]

theorem readForm_binary {m : List Char} {mk : Byte → Byte → Instr} (hm : binaryMnemonic m = some mk) (hldi : m ≠ ['L', 'D', 'I'])
    {a b : Byte} (ha : a.toNat < 8) (hb : b.toNat < 8) :
    readForm m [registerText a, registerText b] = some (.instr (mk a b)) := by
  simp only [readForm, hm, hldi, if_false, readRegister_registerText ha, readRegister_registerText hb]

theorem readForm_ldi {a : Byte} (ha : a.toNat < 8) (imm : Byte) :
    readForm ['L', 'D', 'I'] [registerText a, Nat.toDigits 10 imm.toNat] = some (.instr (.ldi a imm)) := by
  simp only [readForm, readRegister_registerText ha, if_true, readLdi_toDigits]

theorem toNat_lt_of_wellFormed {i : Instr} (hwf : i.wellFormed = true) {a : Byte} (ha : a ∈ i.regOperands) : a.toNat < 8 :=
  (isRegIndex_iff a).1 (List.all_eq_true.1 hwf a ha)

theorem assembleText_unary_register {m : List Char} (hword : isWord m = true) {mk : Byte → Instr}
    (hm : unaryMnemonic m = some mk) {a : Byte} (ha : a.toNat < 8) :
    assembleText (m ++ ' ' :: registerText a) = assemble (mk a) :=
  assembleText_unary hword (isWord_registerText a) (readForm_unary hm ha)

theorem assembleText_binary_register {m : List Char} (hword : isWord m = true) {mk : Byte → Byte → Instr}
    (hm : binaryMnemonic m = some mk) (hldi : m ≠ ['L', 'D', 'I']) {a b : Byte} (ha : a.toNat < 8) (hb : b.toNat < 8) :
    assembleText (m ++ ' ' :: (registerText a ++ ',' :: ' ' :: registerText b)) = assemble (mk a b) :=
  assembleText_binary hword (isWord_registerText a) (isWord_registerText b) (readForm_binary hm hldi ha hb)

theorem assembleText_instrText {i : Instr} (hwf : i.wellFormed = true) : assembleText (instrText i) = assemble i := by
  have hreg (a : Byte) := toNat_lt_of_wellFormed hwf (a := a)
  cases i with
  | halt => exact assembleText_nullary (m := "HALT".toList) (by decide) rfl
  | ret => exact assembleText_nullary (m := "RET".toList) (by decide) rfl
  | push a => exact assembleText_unary_register (m := "PUSH".toList) (by decide) rfl (hreg a (.head _))
  | pop a => exact assembleText_unary_register (m := "POP".toList) (by decide) rfl (hreg a (.head _))
  | prn a => exact assembleText_unary_register (m := "PRN".toList) (by decide) rfl (hreg a (.head _))
  | call a => exact assembleText_unary_register (m := "CALL".toList) (by decide) rfl (hreg a (.head _))
  | ldi a imm =>
    exact assembleText_binary (m := "LDI".toList) (by decide) (isWord_registerText a) (isWord_toDigits imm.toNat)
      (readForm_ldi (hreg a (.head _)) imm)
  | add a b =>
    exact assembleText_binary_register (m := "ADD".toList) (by decide) rfl (by decide) (hreg a (.head _))
      (hreg b (.tail _ (.head _)))
  | sub a b =>
    exact assembleText_binary_register (m := "SUB".toList) (by decide) rfl (by decide) (hreg a (.head _))
      (hreg b (.tail _ (.head _)))
  | mul a b =>
    exact assembleText_binary_register (m := "MUL".toList) (by decide) rfl (by decide) (hreg a (.head _))
      (hreg b (.tail _ (.head _)))
  | div a b =>
    exact assembleText_binary_register (m := "DIV".toList) (by decide) rfl (by decide) (hreg a (.head _))
      (hreg b (.tail _ (.head _)))
  | mod a b =>
    exact assembleText_binary_register (m := "MOD".toList) (by decide) rfl (by decide) (hreg a (.head _))
      (hreg b (.tail _ (.head _)))

/-- Settles O7: the text reads back as its instruction, whose bytes the assembler then emits. -/
theorem instructionTextAssembles : Obligations.InstructionTextAssembles := by
  intro i hwf
  rw [assembleText_instrText hwf, assemble, if_pos hwf]

end Sys2Proof.Machine
end
